-- ==== Sys2Proof/Word.lean ====
section
/-! DEFINITION. The widths of the machine's values (rules R7, R9): all unsigned. -/

namespace Sys2Proof

/-- A 4-bit field of an opcode (R101). -/
abbrev Nibble := BitVec 4

/-- A byte of memory, a general register, a timer, an immediate `kk` (R9). -/
abbrev Byte := BitVec 8

/-- A 12-bit address operand `nnn` (R101). -/
abbrev Addr := BitVec 12

/-- An opcode, `pc`, `I`, a stack slot, the key mask (R7). -/
abbrev Word := BitVec 16

/-- The index of a general register, 0 to 15 (R20). -/
abbrev Reg := Fin 16

/-- The height `n` of a sprite in rows, 0 to 15 (R101, R202). -/
abbrev Height := Fin 16

end Sys2Proof
end

