-- ==== Sys2Proof/Config.lean ====
section
/-! DEFINITION. The free value of the model. -/

namespace Sys2Proof

/-- The byte that the `k`-th execution of RND draws (R192, decision D21): the source's `random8()`.
It has no body, so nothing can be proved of its values. Log entry 5. -/
opaque Config.random8 : Nat → Byte

end Sys2Proof
end

