-- ==== Sys2Proof/Machine/Flags.lean ====
section
/-! DEFINITION. The values written to the flag register `V[15]` (R21), each from the operands' values
before the instruction (R181). -/

namespace Sys2Proof.Machine

/-- A flag as the byte 1 or 0. -/
def flagByte (p : Bool) : Byte := if p then 0x01#8 else 0x00#8

/-- ADD Vx, Vy: 1 if `a + b >= 256` (R183). -/
def carryFlag (a b : Byte) : Byte := flagByte (decide (256 ≤ a.toNat + b.toNat))

/-- The subtraction `a - b`: 1 if it borrows, that is if `b > a` (R185; R186 with the operands
exchanged). The polarity is the source's. -/
def borrowFlag (a b : Byte) : Byte := flagByte (decide (a.toNat < b.toNat))

/-- SHR: the bit shifted out, `a & 0x01` (R190). -/
def shrFlag (a : Byte) : Byte := a &&& 0x01#8

/-- SHL: the raw high bit, `a & 0x80`, so 0x00 or 0x80 (R191). -/
def shlFlag (a : Byte) : Byte := a &&& 0x80#8

end Sys2Proof.Machine
end

