-- ==== Sys2Proof/Syntax.lean ====
section
/-! DEFINITION. The thirty-five instructions of the opcode table (R105, R108), in the table's order. -/

namespace Sys2Proof

/-- One constructor per row of the opcode table: an operation with its addressing mode, carrying the
operands the opcode gives it (R103). -/
inductive Instr where
  /-- `00E0`, R200 -/
  | cls
  /-- `00EE`, R143 -/
  | ret
  /-- `0nnn` other than `00E0` and `00EE`, R148 -/
  | sys (nnn : Addr)
  /-- `1nnn`, R140 -/
  | jp (nnn : Addr)
  /-- `2nnn`, R142 -/
  | call (nnn : Addr)
  /-- `3xkk`, R144 -/
  | seImm (x : Reg) (kk : Byte)
  /-- `4xkk`, R145 -/
  | sneImm (x : Reg) (kk : Byte)
  /-- `5xy0`, R146 -/
  | seReg (x y : Reg)
  /-- `6xkk`, R160 -/
  | ldImm (x : Reg) (kk : Byte)
  /-- `7xkk`, R182 -/
  | addImm (x : Reg) (kk : Byte)
  /-- `8xy0`, R161 -/
  | ldReg (x y : Reg)
  /-- `8xy1`, R187 -/
  | orReg (x y : Reg)
  /-- `8xy2`, R188 -/
  | andReg (x y : Reg)
  /-- `8xy3`, R189 -/
  | xorReg (x y : Reg)
  /-- `8xy4`, R183 -/
  | addReg (x y : Reg)
  /-- `8xy5`, R185 -/
  | subReg (x y : Reg)
  /-- `8xy6`, R190; `y` is decoded and ignored (R113) -/
  | shr (x y : Reg)
  /-- `8xy7`, R186 -/
  | subnReg (x y : Reg)
  /-- `8xyE`, R191; `y` is decoded and ignored (R113) -/
  | shl (x y : Reg)
  /-- `9xy0`, R147 -/
  | sneReg (x y : Reg)
  /-- `Annn`, R162 -/
  | ldI (nnn : Addr)
  /-- `Bnnn`, R141 -/
  | jpV0 (nnn : Addr)
  /-- `Cxkk`, R192 -/
  | rnd (x : Reg) (kk : Byte)
  /-- `Dxyn`, R201 -/
  | drw (x y : Reg) (n : Height)
  /-- `Ex9E`, R214 -/
  | skp (x : Reg)
  /-- `ExA1`, R215 -/
  | sknp (x : Reg)
  /-- `Fx07`, R210 -/
  | ldVxDt (x : Reg)
  /-- `Fx0A`, R213 -/
  | ldVxK (x : Reg)
  /-- `Fx15`, R211 -/
  | ldDtVx (x : Reg)
  /-- `Fx18`, R212 -/
  | ldStVx (x : Reg)
  /-- `Fx1E`, R184 -/
  | addIVx (x : Reg)
  /-- `Fx29`, R163 -/
  | ldFVx (x : Reg)
  /-- `Fx33`, R164 -/
  | ldBVx (x : Reg)
  /-- `Fx55`, `LD [I], Vx`, R165 -/
  | storeRegs (x : Reg)
  /-- `Fx65`, `LD Vx, [I]`, R166 -/
  | loadRegs (x : Reg)
  deriving DecidableEq, Repr

end Sys2Proof
end

