-- ==== Sys2Proof/Decode.lean ====
section
/-! DEFINITION. The Instruction Decoder (R100 to R109) and, after it, an encoder from the same table. -/

namespace Sys2Proof

/-- Why a byte sequence is not an instruction. -/
inductive DecodeError where
  /-- fewer than the two bytes every instruction has (R100) -/
  | truncated
  /-- an opcode that matches no row of the table (R106, R232) -/
  | decodeFailure (op : Word)
  deriving DecidableEq, Repr

/-- `op[15:12]`, the major opcode (R101). -/
def opN3 (op : Word) : Nibble := op.extractLsb' 12 4
/-- `op[11:8]`, the nibble that holds `x` (R101). -/
def opN2 (op : Word) : Nibble := op.extractLsb' 8 4
/-- `op[7:4]`, the nibble that holds `y` (R101). -/
def opN1 (op : Word) : Nibble := op.extractLsb' 4 4
/-- `op[3:0]`, the nibble that holds `n` (R101). -/
def opN0 (op : Word) : Nibble := op.extractLsb' 0 4

/-- The operand field `x` as a register index. -/
def opX (op : Word) : Reg := (opN2 op).toFin
/-- The operand field `y` as a register index. -/
def opY (op : Word) : Reg := (opN1 op).toFin
/-- The operand field `n` as a sprite height. -/
def opN (op : Word) : Height := (opN0 op).toFin
/-- The operand field `kk = op[7:0]`. -/
def opKK (op : Word) : Byte := op.extractLsb' 0 8
/-- The operand field `nnn = op[11:0]`. -/
def opNNN (op : Word) : Addr := op.extractLsb' 0 12

/-- Rows `0nnn`: CLS and RET win over SYS (R104). -/
def decodeGroup0 (nnn : Addr) : Instr :=
  if nnn = 0x0E0#12 then .cls else if nnn = 0x0EE#12 then .ret else .sys nnn

/-- Rows `8xyN`, by the minor opcode `op[3:0]` (R105 rows 11 to 19). -/
def decodeGroup8 (x y : Reg) (n0 : Nibble) : Option Instr :=
  match n0 with
  | 0x0#4 => some (.ldReg x y)
  | 0x1#4 => some (.orReg x y)
  | 0x2#4 => some (.andReg x y)
  | 0x3#4 => some (.xorReg x y)
  | 0x4#4 => some (.addReg x y)
  | 0x5#4 => some (.subReg x y)
  | 0x6#4 => some (.shr x y)
  | 0x7#4 => some (.subnReg x y)
  | 0xE#4 => some (.shl x y)
  | _ => none

/-- Rows `ExKK`, by the minor opcode `op[7:0]` (R105 rows 25 and 26). -/
def decodeGroupE (x : Reg) (kk : Byte) : Option Instr :=
  match kk with
  | 0x9E#8 => some (.skp x)
  | 0xA1#8 => some (.sknp x)
  | _ => none

/-- Rows `FxKK`, by the minor opcode `op[7:0]` (R105 rows 27 to 35). -/
def decodeGroupF (x : Reg) (kk : Byte) : Option Instr :=
  match kk with
  | 0x07#8 => some (.ldVxDt x)
  | 0x0A#8 => some (.ldVxK x)
  | 0x15#8 => some (.ldDtVx x)
  | 0x18#8 => some (.ldStVx x)
  | 0x1E#8 => some (.addIVx x)
  | 0x29#8 => some (.ldFVx x)
  | 0x33#8 => some (.ldBVx x)
  | 0x55#8 => some (.storeRegs x)
  | 0x65#8 => some (.loadRegs x)
  | _ => none

/-- `Decode(op)` (R104): the instruction of an opcode, or none where no row matches (R106). -/
def decodeOp (op : Word) : Option Instr :=
  match opN3 op with
  | 0x0#4 => some (decodeGroup0 (opNNN op))
  | 0x1#4 => some (.jp (opNNN op))
  | 0x2#4 => some (.call (opNNN op))
  | 0x3#4 => some (.seImm (opX op) (opKK op))
  | 0x4#4 => some (.sneImm (opX op) (opKK op))
  | 0x5#4 => if opN0 op = 0x0#4 then some (.seReg (opX op) (opY op)) else none
  | 0x6#4 => some (.ldImm (opX op) (opKK op))
  | 0x7#4 => some (.addImm (opX op) (opKK op))
  | 0x8#4 => decodeGroup8 (opX op) (opY op) (opN0 op)
  | 0x9#4 => if opN0 op = 0x0#4 then some (.sneReg (opX op) (opY op)) else none
  | 0xA#4 => some (.ldI (opNNN op))
  | 0xB#4 => some (.jpV0 (opNNN op))
  | 0xC#4 => some (.rnd (opX op) (opKK op))
  | 0xD#4 => some (.drw (opX op) (opY op) (opN op))
  | 0xE#4 => decodeGroupE (opX op) (opKK op)
  | _ => decodeGroupF (opX op) (opKK op)

/-- Two bytes as a word, the first the high one: `256 * hi + lo` (R70, R72). -/
def wordOfBytes (hi lo : Byte) : Word := BitVec.ofNat 16 (256 * hi.toNat + lo.toNat)

/-- The high byte of a word, `w[15:8]` (R71). -/
def hiByte (w : Word) : Byte := w.extractLsb' 8 8

/-- The low byte of a word, `w[7:0]` (R71). -/
def loByte (w : Word) : Byte := w.extractLsb' 0 8

/-- The bytes of an opcode as memory holds them, the high byte at the lower address (R72, R100). -/
def opBytes (op : Word) : List Byte := [hiByte op, loByte op]

/-- The first instruction of a byte sequence and the bytes after it, or why there is none. -/
def decode : List Byte → Except DecodeError (Instr × List Byte)
  | hi :: lo :: rest =>
    match decodeOp (wordOfBytes hi lo) with
    | some i => .ok (i, rest)
    | none => .error (.decodeFailure (wordOfBytes hi lo))
  | [_] => .error .truncated
  | [] => .error .truncated

/-! The encoder, from the formats of R102 and the rows of R105. -/

/-- Format NNN. -/
def fmtNNN (n3 : Nibble) (nnn : Addr) : Word := BitVec.ofNat 16 (0x1000 * n3.toNat + nnn.toNat)
/-- Format XKK, and format X with its minor opcode in place of `kk`. -/
def fmtXKK (n3 : Nibble) (x : Reg) (kk : Byte) : Word :=
  BitVec.ofNat 16 (0x1000 * n3.toNat + 0x100 * x.val + kk.toNat)
/-- Format XYN, and format XY with its minor opcode in place of `n`. -/
def fmtXYN (n3 : Nibble) (x y : Reg) (n0 : Nibble) : Word :=
  BitVec.ofNat 16 (0x1000 * n3.toNat + 0x100 * x.val + 0x10 * y.val + n0.toNat)

/-- The opcode of an instruction. -/
def encodeOp : Instr → Word
  | .cls => 0x00E0#16
  | .ret => 0x00EE#16
  | .sys nnn => fmtNNN 0x0#4 nnn
  | .jp nnn => fmtNNN 0x1#4 nnn
  | .call nnn => fmtNNN 0x2#4 nnn
  | .seImm x kk => fmtXKK 0x3#4 x kk
  | .sneImm x kk => fmtXKK 0x4#4 x kk
  | .seReg x y => fmtXYN 0x5#4 x y 0x0#4
  | .ldImm x kk => fmtXKK 0x6#4 x kk
  | .addImm x kk => fmtXKK 0x7#4 x kk
  | .ldReg x y => fmtXYN 0x8#4 x y 0x0#4
  | .orReg x y => fmtXYN 0x8#4 x y 0x1#4
  | .andReg x y => fmtXYN 0x8#4 x y 0x2#4
  | .xorReg x y => fmtXYN 0x8#4 x y 0x3#4
  | .addReg x y => fmtXYN 0x8#4 x y 0x4#4
  | .subReg x y => fmtXYN 0x8#4 x y 0x5#4
  | .shr x y => fmtXYN 0x8#4 x y 0x6#4
  | .subnReg x y => fmtXYN 0x8#4 x y 0x7#4
  | .shl x y => fmtXYN 0x8#4 x y 0xE#4
  | .sneReg x y => fmtXYN 0x9#4 x y 0x0#4
  | .ldI nnn => fmtNNN 0xA#4 nnn
  | .jpV0 nnn => fmtNNN 0xB#4 nnn
  | .rnd x kk => fmtXKK 0xC#4 x kk
  | .drw x y n => fmtXYN 0xD#4 x y (BitVec.ofNat 4 n.val)
  | .skp x => fmtXKK 0xE#4 x 0x9E#8
  | .sknp x => fmtXKK 0xE#4 x 0xA1#8
  | .ldVxDt x => fmtXKK 0xF#4 x 0x07#8
  | .ldVxK x => fmtXKK 0xF#4 x 0x0A#8
  | .ldDtVx x => fmtXKK 0xF#4 x 0x15#8
  | .ldStVx x => fmtXKK 0xF#4 x 0x18#8
  | .addIVx x => fmtXKK 0xF#4 x 0x1E#8
  | .ldFVx x => fmtXKK 0xF#4 x 0x29#8
  | .ldBVx x => fmtXKK 0xF#4 x 0x33#8
  | .storeRegs x => fmtXKK 0xF#4 x 0x55#8
  | .loadRegs x => fmtXKK 0xF#4 x 0x65#8

/-- The two bytes of an instruction, in memory order. -/
def encode (i : Instr) : List Byte := opBytes (encodeOp i)

/-- The opcode that the opcode table's bits `w` give: the low `nbits` bits of `w`, every bit above
them 0. The machine's instruction is one word, so table bit k is opcode bit k. -/
def tableWord (nbits w : Nat) : Word := BitVec.ofNat 16 (w % 2 ^ nbits)

/-- What the decoder reads from the instruction whose bits, numbered as the opcode table numbers them,
are `w`. -/
def decodeTableWord (nbits w : Nat) : Option Instr :=
  match decode (opBytes (tableWord nbits w)) with
  | .ok (i, _) => some i
  | .error _ => none

end Sys2Proof
end

