-- ==== Sys2Proof/Machine/Parameters.lean ====
section
/-! DEFINITION. The values that the spec recommends for the parameters `BOOT_IMAGE` and
`BOOT_WRITABLE_AFTER_LOCK` (R8, R64, decisions D1 and D2). -/

namespace Sys2Proof.Machine

/-- Glyphs 0 to 3 of the recommended font (R64). -/
def glyphs0to3 : List Byte :=
  [0xF0#8, 0x90#8, 0x90#8, 0x90#8, 0xF0#8] ++ [0x20#8, 0x60#8, 0x20#8, 0x20#8, 0x70#8] ++
  [0xF0#8, 0x10#8, 0xF0#8, 0x80#8, 0xF0#8] ++ [0xF0#8, 0x10#8, 0xF0#8, 0x10#8, 0xF0#8]

/-- Glyphs 4 to 7 of the recommended font (R64). -/
def glyphs4to7 : List Byte :=
  [0x90#8, 0x90#8, 0xF0#8, 0x10#8, 0x10#8] ++ [0xF0#8, 0x80#8, 0xF0#8, 0x10#8, 0xF0#8] ++
  [0xF0#8, 0x80#8, 0xF0#8, 0x90#8, 0xF0#8] ++ [0xF0#8, 0x10#8, 0x20#8, 0x40#8, 0x40#8]

/-- Glyphs 8 to B of the recommended font (R64). -/
def glyphs8toB : List Byte :=
  [0xF0#8, 0x90#8, 0xF0#8, 0x90#8, 0xF0#8] ++ [0xF0#8, 0x90#8, 0xF0#8, 0x10#8, 0xF0#8] ++
  [0xF0#8, 0x90#8, 0xF0#8, 0x90#8, 0x90#8] ++ [0xE0#8, 0x90#8, 0xE0#8, 0x90#8, 0xE0#8]

/-- Glyphs C to F of the recommended font (R64). -/
def glyphsCtoF : List Byte :=
  [0xF0#8, 0x80#8, 0x80#8, 0x80#8, 0xF0#8] ++ [0xE0#8, 0x90#8, 0x90#8, 0x90#8, 0xE0#8] ++
  [0xF0#8, 0x80#8, 0xF0#8, 0x80#8, 0xF0#8] ++ [0xF0#8, 0x80#8, 0xF0#8, 0x80#8, 0x80#8]

/-- The recommended font table, 80 bytes from address 0x000, glyph `k` at `5 * k` (R64). -/
def recommendedFont : List Byte := glyphs0to3 ++ glyphs4to7 ++ glyphs8toB ++ glyphsCtoF

/-- Byte `a` of the recommended `BOOT_IMAGE`: the font, then zeros (R64, D2). DESIGN CHOICE, log entry 1. -/
def recommendedBootByte (a : Nat) : Byte := recommendedFont.getD a 0x00#8

/-- The recommended `BOOT_IMAGE`, 512 bytes (R64). -/
def recommendedBootImage : Vector Byte 512 := Vector.ofFn fun k => recommendedBootByte k.val

/-- The default of `BOOT_WRITABLE_AFTER_LOCK`, the reference behaviour (R8, D1). DESIGN CHOICE, log entry 2. -/
def defaultBootWritable : Bool := true

end Sys2Proof.Machine
end

