-- ==== Sys2Proof/Machine/State.lean ====
section
/-! DEFINITION. The machine's state (R38), the reasons it can stop, and its value after reset (R39). -/

namespace Sys2Proof.Machine

/-- The input/wait status of the CPU Engine (R31). -/
inductive Status where
  /-- cycles execute instructions -/
  | running
  /-- LD Vr, K has executed and no key press has arrived: cycles change nothing (R132) -/
  | waitingKeypress (r : Reg)
  deriving DecidableEq, Repr

/-- The seven fatal conditions (R231). `raise` (R230) records one in the state's `fault` item, where it
stays for ever (R36), so a step that raises answers the NEXT state that holds the record, and no step
answers `Host.Outcome.fault`. Every one is SAFE: a statement of the spec, or a stop where the reference
might go on. -/
inductive Fault where
  /-- R232: raised by the decode stage of a cycle on an opcode that matches no row. Safe. -/
  | decodeFailure (op : Word)
  /-- R233: raised by any byte access at 4096 or above (fetch, DRW, LD B, LD [I] and LD from [I]) and by
  an image load that would pass 0xFFF. Safe. -/
  | addressOutOfRange (addr : Nat)
  /-- R234: raised by SYS, always. Safe. -/
  | unimplementedOperation (op : Word)
  /-- R235: raised by CPU Engine construction while the Memory Unit is unlocked. Safe. -/
  | constructUnlocked
  /-- R236: raised by CALL with sixteen words on the stack. Safe (decision D7). -/
  | stackOverflow (pc : Word)
  /-- R237: raised by RET on the empty stack. Safe (decision D7). -/
  | stackUnderflow (pc : Word)
  /-- R238: raised by SKP and SKNP on a key index above 15. Safe (decision D14). -/
  | keyIndexOutOfRange (v : Byte)
  deriving DecidableEq, Repr

/-- What the model does not define. Every one is SAFE: nothing can be proved of a state after it. -/
inductive Refusal where
  /-- answered by an arm of `exec` whose instruction has no meaning yet. Safe. No arm answers it. -/
  | notModelled (mnemonic : String)
  /-- answered by a cycle, tick, key mask or key press before the CPU Engine is constructed
  (R245, R248, U21). Safe. -/
  | cpuAbsent
  /-- answered by an image load on a Memory Unit whose lock is engaged or whose CPU exists
  (R75, U20). Safe. -/
  | imageAlreadyLoaded
  /-- answered by a second construction of the CPU Engine (R247 allows it once). Safe. -/
  | cpuAlreadyPresent
  deriving DecidableEq, Repr

/-- The bytes that differ from what an unlisted address reads as, by rising address. -/
abbrev Memory := List Host.Cell

/-- The 2048 cells of the framebuffer; cell `(x, y)` is bit `x + 64 * y` (R35). -/
abbrev Framebuffer := BitVec 2048

/-- The fourteen items of R38, and two fields of the model's own (`bootWritable`, `draws`). -/
structure State where
  /-- the general registers `V[0]` to `V[15]` (R20); `V[15]` is also the flag (R21) -/
  v : Vector Byte 16
  /-- the program counter (R23) -/
  pc : Word
  /-- the index register `I` (R25) -/
  i : Word
  /-- the sixteen slots of the call stack (R26) -/
  stack : Vector Word 16
  /-- the number of words on the stack, 0 to 16 (R27) -/
  sp : Fin 17
  /-- the delay timer `DT` (R30) -/
  dt : Byte
  /-- the sound timer `ST` (R30) -/
  st : Byte
  /-- the input/wait status (R31) -/
  status : Status
  /-- the keypad mask, bit `k` is 1 when key `k` is down (R32) -/
  keys : Word
  /-- the 4096 bytes of memory (R33) -/
  mem : Memory
  /-- the write lock of the Memory Unit (R34) -/
  locked : Bool
  /-- the framebuffer (R35) -/
  fb : Framebuffer
  /-- the fatal condition that has happened, if any (R36) -/
  fault : Option Fault
  /-- the CPU Engine has been constructed (R39) -/
  cpuPresent : Bool
  /-- the MODEL's own: the parameter `BOOT_WRITABLE_AFTER_LOCK` this machine was constructed with
  (R8, D1). Nothing changes it. Log entry 2. -/
  bootWritable : Bool
  /-- the MODEL's own: how many random bytes have been drawn, the argument of the next draw from
  `Config.random8` (R192). Log entry 5. -/
  draws : Nat
  deriving DecidableEq, Repr

/-- The launch state (R39, R273): the Memory Unit constructed with the recommended parameters, an empty
image loaded (so the lock is engaged, R75), the CPU Engine constructed. -/
def State.reset : State where
  v := Vector.replicate 16 0x00#8
  pc := 0x0200#16
  i := 0x0000#16
  stack := Vector.replicate 16 0x0000#16
  sp := 0
  dt := 0x00#8
  st := 0x00#8
  status := .running
  keys := 0x0000#16
  mem := []
  locked := true
  fb := 0#2048
  fault := none
  cpuPresent := true
  bootWritable := defaultBootWritable
  draws := 0

end Sys2Proof.Machine
end

