-- ==== Sys2Proof/Machine/Ops.lean ====
section
/-! DEFINITION. The named operations over registers, memory, stack and framebuffer, and the raising of a
fatal condition. -/

namespace Sys2Proof.Machine

/-! ## Registers -/

/-- `V[r]` (R20). -/
def State.reg (s : State) (r : Reg) : Byte := s.v[r]

/-- `V[r] <- b` (R20). -/
def State.setReg (s : State) (r : Reg) (b : Byte) : State := { s with v := s.v.set r.val b r.isLt }

/-- `V[15] <- b`, the flag register (R21). -/
def State.setFlag (s : State) (b : Byte) : State := s.setReg 15 b

/-- The two-step commit of an instruction with a result and a flag (R181): first `V[x] <- result`, then
`V[15] <- flag`, so with `x = 15` the flag stays (decision D5). -/
def State.commit (s : State) (x : Reg) (result flag : Byte) : State := (s.setReg x result).setFlag flag

/-- `pc <- t` (R23). -/
def State.setPc (s : State) (t : Word) : State := { s with pc := t }

/-- `I <- a` (R25). -/
def State.setI (s : State) (a : Word) : State := { s with i := a }

/-- `DT <- b` (R30). -/
def State.setDt (s : State) (b : Byte) : State := { s with dt := b }

/-- `ST <- b` (R30). -/
def State.setSt (s : State) (b : Byte) : State := { s with st := b }

/-- `status <- q` (R31). -/
def State.setStatus (s : State) (q : Status) : State := { s with status := q }

/-- `keys <- mask` (R32). -/
def State.setKeys (s : State) (mask : Word) : State := { s with keys := mask }

/-- Memory replaced as a whole. -/
def State.setMem (s : State) (m : Memory) : State := { s with mem := m }

/-- The framebuffer replaced as a whole. -/
def State.setFb (s : State) (f : Framebuffer) : State := { s with fb := f }

/-- `pc <- (pc + 2) mod 65536`: the advance after a fetch (R131) and the further advance of a skip (R150). -/
def State.advancePc (s : State) : State := s.setPc (s.pc + 2#16)

/-! ## Fatal conditions -/

/-- `raise c` (R230): record the cause if there is none yet. The statements before the raise have run
and keep their effect (R133 allows it, log entry 6); the caller runs none after it. -/
def State.raise (s : State) (c : Fault) : State := { s with fault := s.fault.or (some c) }

/-- The cause's code number (R231, decision D19). -/
def Fault.code : Fault → Nat
  | .decodeFailure _ => 1
  | .addressOutOfRange _ => 2
  | .unimplementedOperation _ => 3
  | .constructUnlocked => 4
  | .stackOverflow _ => 5
  | .stackUnderflow _ => 6
  | .keyIndexOutOfRange _ => 7

/-- Where a sequence of statements stands (R13): the next statement runs, or a raise has ended it. -/
inductive Flow where
  /-- go on in this state -/
  | go (s : State)
  /-- a statement has raised; no further statement runs -/
  | halted (s : State)
  deriving DecidableEq, Repr

/-- The state a sequence of statements leaves. -/
def Flow.final : Flow → State
  | .go s => s
  | .halted s => s

/-- One statement after another (R13). -/
def Flow.andThen : Flow → (State → Flow) → Flow
  | .go s, f => f s
  | .halted s, _ => .halted s

/-- `for k = 0 to n - 1 (ascending): body k`. -/
def forUpTo (body : Nat → State → Flow) : Nat → State → Flow
  | 0, s => .go s
  | n + 1, s => (forUpTo body n s).andThen (body n)

/-! ## Memory -/

/-- The first address past the address space (R60). -/
def memSize : Nat := 4096

/-- What an address that the memory does not list reads as: the recommended `BOOT_IMAGE` below 0x200
(R64, log entry 1), zero elsewhere (R65, log entry 4). -/
def Memory.unlisted (a : Nat) : Byte := if a < 0x200 then recommendedBootByte a else 0x00#8

/-- `mem[a]`. -/
def Memory.read : Memory → Nat → Byte
  | [], a => Memory.unlisted a
  | (k, b) :: rest, a =>
    if a < k then Memory.unlisted a else if a = k then b else Memory.read rest a

/-- The entries for one byte: none where it is what an unlisted address reads as. -/
def Memory.entry (a : Nat) (b : Byte) : Memory := if b = Memory.unlisted a then [] else [(a, b)]

/-- `mem[a] <- b`, keeping the canonical form. -/
def Memory.write : Memory → Nat → Byte → Memory
  | [], a, b => Memory.entry a b
  | (k, c) :: rest, a, b =>
    if a < k then Memory.entry a b ++ (k, c) :: rest
    else if a = k then Memory.entry a b ++ rest
    else (k, c) :: Memory.write rest a b

/-- The canonical form: addresses rise strictly and exist, and no entry says what would be read anyway. -/
def Memory.wf : Memory → Bool
  | [] => true
  | (k, b) :: rest =>
    decide (k < memSize) && b != Memory.unlisted k && rest.all (fun c => decide (k < c.1)) && Memory.wf rest

/-- A run of bytes written at `a` upward, directly (R75). -/
def Memory.poke : Memory → Nat → List Byte → Memory
  | m, _, [] => m
  | m, a, b :: rest => Memory.poke (m.write a b) (a + 1) rest

/-- `MemRead(a, 1)` (R66): the byte, or the fatal condition. -/
def State.memRead (s : State) (a : Nat) : Except Fault Byte :=
  if 4096 ≤ a then .error (.addressOutOfRange a) else .ok (s.mem.read a)

/-- `MemRead(a, 2)` (R70): the high byte at `a`, then the low byte at `a + 1`. -/
def State.memReadWord (s : State) (a : Nat) : Except Fault Word :=
  match s.memRead a with
  | .error c => .error c
  | .ok hi =>
    match s.memRead (a + 1) with
    | .error c => .error c
    | .ok lo => .ok (wordOfBytes hi lo)

/-- Whether a write to `a` takes effect (R67, R68), by the lock and the region. -/
def State.writable (s : State) (a : Nat) : Bool :=
  if !s.locked then true
  else if a < 0x200 then s.bootWritable
  else if a < 0x600 then false
  else true

/-- `MemWrite(a, 1, b)` (R67): fatal out of range, ignored where not writable, else the byte is written. -/
def State.memWrite (s : State) (a : Nat) (b : Byte) : Flow :=
  if 4096 ≤ a then .halted (s.raise (.addressOutOfRange a))
  else if s.writable a then .go (s.setMem (s.mem.write a b))
  else .go s

/-- `MemWrite(a, 2, w)` (R71): two byte writes, the high byte first. No instruction makes it (R63). -/
def State.memWriteWord (s : State) (a : Nat) (w : Word) : Flow :=
  (s.memWrite a (hiByte w)).andThen fun s1 => s1.memWrite (a + 1) (loByte w)

/-! ## Call stack -/

/-- `Push(w)` (R28): `StackOverflow(pc)` on a full stack (decision D7). -/
def State.push (s : State) (w : Word) : Flow :=
  if h : s.sp.val < 16 then
    .go { s with stack := s.stack.set s.sp.val w h, sp := ⟨s.sp.val + 1, by omega⟩ }
  else .halted (s.raise (.stackOverflow s.pc))

/-- `pc <- Pop()` (R29, R143): `StackUnderflow(pc)` on the empty stack (decision D7); the popped slot is
set to 0 (decision D32). -/
def State.popToPc (s : State) : Flow :=
  if h : 0 < s.sp.val then
    .go { s with
      pc := s.stack[s.sp.val - 1]'(by omega)
      stack := s.stack.set (s.sp.val - 1) 0x0000#16 (by omega)
      sp := ⟨s.sp.val - 1, by omega⟩ }
  else .halted (s.raise (.stackUnderflow s.pc))

/-! ## Framebuffer -/

/-- The number of the cell `(x, y)`: `x + 64 * y` (R35, R76). -/
def fbIndex (x y : Nat) : Nat := x + 64 * y

/-- The cell `(x, y)`: true is lit (R35). -/
def State.cell (s : State) (x : Fin 64) (y : Fin 32) : Bool := s.fb.getLsbD (fbIndex x.val y.val)

/-- `FbDraw(x, y, bit)` (R77): XOR into the cell; the Boolean is whether the cell equalled `bit` before. -/
def State.fbDraw (s : State) (x : Fin 64) (y : Fin 32) (bit : Bool) : Bool × State :=
  (s.cell x y == bit,
    s.setFb (if bit then s.fb ^^^ BitVec.twoPow 2048 (fbIndex x.val y.val) else s.fb))

/-- `FbClear()` (R78). -/
def State.fbClear (s : State) : State := s.setFb 0#2048

end Sys2Proof.Machine
end

