-- ==== Sys2Proof/Machine/Operands.lean ====
section
/-! DEFINITION. The operand forms and the arithmetic on them (R103, R167, R180): operands as natural
numbers, the exact result, then an explicit narrowing. -/

namespace Sys2Proof.Machine

/-- `zext_16(nnn)` (R11, R103). -/
def zextAddr (nnn : Addr) : Word := nnn.setWidth 16

/-- `zext_16(b)` of a register's byte (R11). -/
def zextByte (b : Byte) : Word := b.setWidth 16

/-- `(a + b) mod 256` (R180). -/
def addByte (a b : Byte) : Byte := BitVec.ofNat 8 (a.toNat + b.toNat)

/-- `(a + 256 - b) mod 256` (R185). -/
def subByte (a b : Byte) : Byte := BitVec.ofNat 8 (a.toNat + 256 - b.toNat)

/-- `a >> 1`, a zero enters at the top (R190). -/
def shrByte (a : Byte) : Byte := BitVec.ofNat 8 (a.toNat / 2)

/-- `(a << 1) mod 256` (R191). -/
def shlByte (a : Byte) : Byte := BitVec.ofNat 8 (2 * a.toNat)

/-- `(a + b) mod 65536` (R180). -/
def addWord (a b : Word) : Word := BitVec.ofNat 16 (a.toNat + b.toNat)

/-- The effective address `I + k`, a natural number that never wraps (R167, decision D11). -/
def State.ea (s : State) (k : Nat) : Nat := s.i.toNat + k

/-- The address of glyph `b`: `5 * b`, with no masking of `b` (R163, decision D23). -/
def glyphAddr (b : Byte) : Word := BitVec.ofNat 16 (5 * b.toNat)

/-- The digits of a byte that LD B stores at `I`, `I + 1`, `I + 2`: hundreds, tens, ones (R164). -/
def bcdDigit (b : Byte) : Nat → Byte
  | 0 => BitVec.ofNat 8 (b.toNat / 100)
  | 1 => BitVec.ofNat 8 (b.toNat / 10 % 10)
  | _ => BitVec.ofNat 8 (b.toNat % 10)

/-- Register number `k` of a loop over registers, `k` below 16 (R165, R166). -/
def regNo (k : Nat) : Reg := Fin.ofNat 16 k

/-- Whether key `k` is down in the mask (R32, R216). -/
def State.keyDown (s : State) (k : Nat) : Bool := s.keys.getLsbD k

/-- A skip where the condition holds (R150). -/
def State.skipIf (s : State) (p : Bool) : State := if p then s.advancePc else s

end Sys2Proof.Machine
end

