-- ==== Sys2Proof/Machine/Arith.lean ====
section
/-! DEFINITION. Arithmetic, logic, shifts and random (spec/43_arithmetic_logic.md). -/

namespace Sys2Proof.Machine

/-- ADD Vx, kk (R182): no flag. -/
def execAddImm (x : Reg) (kk : Byte) (s : State) : Host.Outcome State Fault Refusal :=
  .next (s.setReg x (addByte (s.reg x) kk))

/-- ADD Vx, Vy (R183). -/
def execAddReg (x y : Reg) (s : State) : Host.Outcome State Fault Refusal :=
  .next (s.commit x (addByte (s.reg x) (s.reg y)) (carryFlag (s.reg x) (s.reg y)))

/-- ADD I, Vx (R184): no flag. -/
def execAddI (x : Reg) (s : State) : Host.Outcome State Fault Refusal :=
  .next (s.setI (addWord s.i (zextByte (s.reg x))))

/-- SUB Vx, Vy (R185). -/
def execSub (x y : Reg) (s : State) : Host.Outcome State Fault Refusal :=
  .next (s.commit x (subByte (s.reg x) (s.reg y)) (borrowFlag (s.reg x) (s.reg y)))

/-- SUBN Vx, Vy (R186, decision D4): `Vy - Vx`, with SUB's flag for that subtraction. -/
def execSubn (x y : Reg) (s : State) : Host.Outcome State Fault Refusal :=
  .next (s.commit x (subByte (s.reg y) (s.reg x)) (borrowFlag (s.reg y) (s.reg x)))

/-- OR Vx, Vy (R187): no flag. -/
def execOr (x y : Reg) (s : State) : Host.Outcome State Fault Refusal :=
  .next (s.setReg x (s.reg x ||| s.reg y))

/-- AND Vx, Vy (R188): no flag. -/
def execAnd (x y : Reg) (s : State) : Host.Outcome State Fault Refusal :=
  .next (s.setReg x (s.reg x &&& s.reg y))

/-- XOR Vx, Vy (R189): no flag. -/
def execXor (x y : Reg) (s : State) : Host.Outcome State Fault Refusal :=
  .next (s.setReg x (s.reg x ^^^ s.reg y))

/-- SHR Vx (R190); the field `y` is ignored (R113). -/
def execShr (x _y : Reg) (s : State) : Host.Outcome State Fault Refusal :=
  .next (s.commit x (shrByte (s.reg x)) (shrFlag (s.reg x)))

/-- SHL Vx (R191); the field `y` is ignored (R113). -/
def execShl (x _y : Reg) (s : State) : Host.Outcome State Fault Refusal :=
  .next (s.commit x (shlByte (s.reg x)) (shlFlag (s.reg x)))

/-- `random8()` (R192): the next draw, and the state in which it has been drawn. -/
def State.random8 (s : State) : Byte × State := (Config.random8 s.draws, { s with draws := s.draws + 1 })

/-- RND Vx, kk (R192). -/
def execRnd (x : Reg) (kk : Byte) (s : State) : Host.Outcome State Fault Refusal :=
  .next (s.random8.2.setReg x (s.random8.1 &&& kk))

end Sys2Proof.Machine
end

