-- ==== Sys2Proof/Machine/Control.lean ====
section
/-! DEFINITION. Control transfer: JP, JP V0, CALL, RET, SE, SNE, SYS (spec/41_control_transfer.md).
Every meaning finds `pc` already advanced past its instruction (R131). -/

namespace Sys2Proof.Machine

/-- JP nnn (R140). -/
def execJp (nnn : Addr) (s : State) : Host.Outcome State Fault Refusal := .next (s.setPc (zextAddr nnn))

/-- JP V0, nnn (R141); the sum is not reduced to 12 bits (decision D27). -/
def execJpV0 (nnn : Addr) (s : State) : Host.Outcome State Fault Refusal :=
  .next (s.setPc (addWord (zextByte (s.reg 0)) (zextAddr nnn)))

/-- CALL nnn (R142). -/
def execCall (nnn : Addr) (s : State) : Host.Outcome State Fault Refusal :=
  .next ((s.push s.pc).andThen fun s1 => .go (s1.setPc (zextAddr nnn))).final

/-- RET (R143). -/
def execRet (s : State) : Host.Outcome State Fault Refusal := .next s.popToPc.final

/-- SE Vx, kk (R144). -/
def execSeImm (x : Reg) (kk : Byte) (s : State) : Host.Outcome State Fault Refusal :=
  .next (s.skipIf (s.reg x == kk))

/-- SNE Vx, kk (R145). -/
def execSneImm (x : Reg) (kk : Byte) (s : State) : Host.Outcome State Fault Refusal :=
  .next (s.skipIf (s.reg x != kk))

/-- SE Vx, Vy (R146). -/
def execSeReg (x y : Reg) (s : State) : Host.Outcome State Fault Refusal :=
  .next (s.skipIf (s.reg x == s.reg y))

/-- SNE Vx, Vy (R147). -/
def execSneReg (x y : Reg) (s : State) : Host.Outcome State Fault Refusal :=
  .next (s.skipIf (s.reg x != s.reg y))

/-- SYS nnn (R148): `raise UnimplementedOperation(op)`, always; `op` is `0nnn`. -/
def execSys (nnn : Addr) (s : State) : Host.Outcome State Fault Refusal :=
  .next (s.raise (.unimplementedOperation (zextAddr nnn)))

end Sys2Proof.Machine
end

