-- ==== Sys2Proof/Machine/Display.lean ====
section
/-! DEFINITION. Display: CLS and DRW (spec/44_display.md). -/

namespace Sys2Proof.Machine

/-- CLS (R200). -/
def execCls (s : State) : Host.Outcome State Fault Refusal := .next s.fbClear

/-- One bit of one sprite row (R201, R202): bit `7 - col` of the byte `b`; a set bit toggles the cell
`((vx + col) mod 64, (vy + row) mod 32)` and reports a collision in `V[15]`. -/
def drawPixel (vx vy b : Byte) (row col : Nat) (s : State) : Flow :=
  if b.getLsbD (7 - col) then
    match s.fbDraw (Fin.ofNat 64 (vx.toNat + col)) (Fin.ofNat 32 (vy.toNat + row)) true with
    | (hit, s1) => .go (if hit then s1.setFlag 0x01#8 else s1)
  else .go s

/-- One row of a sprite (R201): the byte at `I + row`, then its eight bits, the most significant first. -/
def drawRow (vx vy : Byte) (row : Nat) (s : State) : Flow :=
  match s.memRead (s.ea row) with
  | .error c => .halted (s.raise c)
  | .ok b => forUpTo (drawPixel vx vy b row) 8 s

/-- DRW Vx, Vy, n (R201): the coordinates are read before `V[15]` is reset (decision D6). -/
def execDrw (x y : Reg) (n : Height) (s : State) : Host.Outcome State Fault Refusal :=
  .next (forUpTo (drawRow (s.reg x) (s.reg y)) n.val (s.setFlag 0x00#8)).final

end Sys2Proof.Machine
end

