-- ==== Sys2Proof/Machine/LoadStore.lean ====
section
/-! DEFINITION. Register loads, index loads, and memory loads and stores (spec/42_load_store.md). -/

namespace Sys2Proof.Machine

/-- LD Vx, kk (R160). -/
def execLdImm (x : Reg) (kk : Byte) (s : State) : Host.Outcome State Fault Refusal := .next (s.setReg x kk)

/-- LD Vx, Vy (R161). -/
def execLdReg (x y : Reg) (s : State) : Host.Outcome State Fault Refusal := .next (s.setReg x (s.reg y))

/-- LD I, nnn (R162). -/
def execLdI (nnn : Addr) (s : State) : Host.Outcome State Fault Refusal := .next (s.setI (zextAddr nnn))

/-- LD F, Vx (R163). -/
def execLdF (x : Reg) (s : State) : Host.Outcome State Fault Refusal := .next (s.setI (glyphAddr (s.reg x)))

/-- One store of LD B: digit `j` of `b` at `I + j`. -/
def storeDigit (b : Byte) (j : Nat) (s : State) : Flow := s.memWrite (s.ea j) (bcdDigit b j)

/-- LD B, Vx (R164): three byte stores, each through the write lock. -/
def execLdB (x : Reg) (s : State) : Host.Outcome State Fault Refusal :=
  .next (forUpTo (storeDigit (s.reg x)) 3 s).final

/-- One store of LD [I], Vx: register `k` at `I + k`. -/
def storeReg (k : Nat) (s : State) : Flow := s.memWrite (s.ea k) (s.reg (regNo k))

/-- LD [I], Vx (R165): registers 0 to `x`, both included. -/
def execStoreRegs (x : Reg) (s : State) : Host.Outcome State Fault Refusal :=
  .next (forUpTo storeReg (x.val + 1) s).final

/-- One load of LD Vx, [I]: register `k` from `I + k`. -/
def loadReg (k : Nat) (s : State) : Flow :=
  match s.memRead (s.ea k) with
  | .error c => .halted (s.raise c)
  | .ok b => .go (s.setReg (regNo k) b)

/-- LD Vx, [I] (R166): registers 0 to `x`, both included. -/
def execLoadRegs (x : Reg) (s : State) : Host.Outcome State Fault Refusal :=
  .next (forUpTo loadReg (x.val + 1) s).final

end Sys2Proof.Machine
end

