-- ==== Sys2Proof/Machine/TimersKeypad.lean ====
section
/-! DEFINITION. Timer and keypad instructions (spec/45_timers_and_keypad.md). -/

namespace Sys2Proof.Machine

/-- LD Vx, DT (R210). -/
def execLdVxDt (x : Reg) (s : State) : Host.Outcome State Fault Refusal := .next (s.setReg x s.dt)

/-- LD DT, Vx (R211). -/
def execLdDtVx (x : Reg) (s : State) : Host.Outcome State Fault Refusal := .next (s.setDt (s.reg x))

/-- LD ST, Vx (R212). -/
def execLdStVx (x : Reg) (s : State) : Host.Outcome State Fault Refusal := .next (s.setSt (s.reg x))

/-- LD Vx, K (R213): the wait begins, whatever `keys` holds; the host's key press ends it (R250). -/
def execLdVxK (x : Reg) (s : State) : Host.Outcome State Fault Refusal :=
  .next (s.setStatus (.waitingKeypress x))

/-- A skip on key number `V[x]` down (`down = true`) or not down; a key number above 15 is fatal (R216,
decision D14). -/
def State.skipOnKey (s : State) (x : Reg) (down : Bool) : State :=
  if 15 < (s.reg x).toNat then s.raise (.keyIndexOutOfRange (s.reg x))
  else s.skipIf (s.keyDown (s.reg x).toNat == down)

/-- SKP Vx (R214). -/
def execSkp (x : Reg) (s : State) : Host.Outcome State Fault Refusal := .next (s.skipOnKey x true)

/-- SKNP Vx (R215). -/
def execSknp (x : Reg) (s : State) : Host.Outcome State Fault Refusal := .next (s.skipOnKey x false)

end Sys2Proof.Machine
end

