-- ==== Sys2Proof/Machine/Cycle.lean ====
section
/-! DEFINITION. One cycle (R130): guards, fetch, advance, decode, execute; and placing an instruction
where a cycle will fetch it. -/

namespace Sys2Proof.Machine

/-- The stages of a cycle after its guards (R130, R131, R134). A fetch fault leaves `pc` unadvanced; a
decode failure happens with `pc` advanced. -/
def fetchAndExecute (s : State) : Host.Outcome State Fault Refusal :=
  match s.memReadWord s.pc.toNat with
  | .error c => .next (s.raise c)
  | .ok op =>
    match decodeOp op with
    | none => .next (s.advancePc.raise (.decodeFailure op))
    | some i => exec i s.advancePc

/-- `cycle()` (R130): nothing changes after a fatal condition (R133) or while a key is awaited (R132); a
cycle is defined only once the CPU Engine exists (R248, U21). -/
def cycle (s : State) : Host.Outcome State Fault Refusal :=
  match s.fault with
  | some _ => .next s
  | none =>
    if s.cpuPresent then
      match s.status with
      | .waitingKeypress _ => .next s
      | .running => fetchAndExecute s
    else .refused .cpuAbsent

/-- The address the next cycle fetches at, where both its bytes exist; the first address of the program
region otherwise. -/
def fetchAddr (s : State) : Word := if s.pc.toNat < 4095 then s.pc else 0x0200#16

/-- The state with the opcode `op` in the two bytes the next cycle fetches, and the guards open. -/
def placeOp (s : State) (op : Word) : State :=
  { s with
    pc := fetchAddr s
    status := .running
    fault := none
    cpuPresent := true
    mem := s.mem.poke (fetchAddr s).toNat (opBytes op) }

end Sys2Proof.Machine
end

