-- ==== Sys2Proof/Machine/Step.lean ====
section
/-! DEFINITION. The machine's step, one call of `cycle()` (R130). -/

namespace Sys2Proof.Machine

/-- One cycle. -/
def step (s : State) : Host.Outcome State Fault Refusal := cycle s

/-- The state in which the very next step fetches and runs the instruction whose bits, numbered as the
opcode table numbers them, are `w`: it stands for the image load that brings a program in (log entry 7). -/
def State.withFetchWord (s : State) (nbits w : Nat) : State := placeOp s (tableWord nbits w)

end Sys2Proof.Machine
end

