-- ==== Sys2Proof/Machine/External.lean ====
section
/-! DEFINITION. What the host can do to the machine (R245 to R254), and bring-up (R270 to R272). -/

namespace Sys2Proof.Machine

/-- `Construct` (R270): the Memory Unit with its two parameters. The CPU Engine does not exist yet; its
fields hold zeros that nothing can read before `ConstructCpu` sets them (log entry 8). -/
def construct (bootImage : Vector Byte 512) (bootWritable : Bool) : State where
  v := Vector.replicate 16 0x00#8
  pc := 0x0000#16
  i := 0x0000#16
  stack := Vector.replicate 16 0x0000#16
  sp := 0
  dt := 0x00#8
  st := 0x00#8
  status := .running
  keys := 0x0000#16
  mem := Memory.poke [] 0 bootImage.toList
  locked := false
  fb := 0#2048
  fault := none
  cpuPresent := false
  bootWritable := bootWritable
  draws := 0

/-- The operations of R245 on a machine that `Construct` has made, and the memory read of R252. -/
inductive Move where
  /-- R246 -/
  | loadImage (bytes : List Byte)
  /-- R253 -/
  | isLocked
  /-- R247 -/
  | constructCpu
  /-- R248 -/
  | cycle
  /-- R249 -/
  | setKeys (mask : Word)
  /-- R250 -/
  | keyPress (k : Fin 16)
  /-- R251 -/
  | tick
  /-- R252 -/
  | readFramebuffer
  /-- R252 -/
  | readMemory (a : Nat)
  /-- R253 -/
  | readStatus
  /-- R253 -/
  | readTimers
  deriving DecidableEq, Repr

/-- `load_image(bytes)` (R75): past 0xFFF it is fatal (decision D20); otherwise the bytes are copied to
0x200 upward, not through the write lock, and the lock engages. Defined only while unlocked (U20). -/
def State.loadImage (s : State) (bytes : List Byte) : Host.Outcome State Fault Refusal :=
  if s.locked || s.cpuPresent then .refused .imageAlreadyLoaded
  else if 3584 < bytes.length then .next (s.raise (.addressOutOfRange 0x1000))
  else .next { s with mem := s.mem.poke 0x200 bytes, locked := true }

/-- `ConstructCpu` (R247, R272). -/
def State.constructCpu (s : State) : Host.Outcome State Fault Refusal :=
  if s.cpuPresent then .refused .cpuAlreadyPresent
  else if s.locked then
    .next { s with
      v := Vector.replicate 16 0x00#8
      pc := 0x0200#16
      i := 0x0000#16
      stack := Vector.replicate 16 0x0000#16
      sp := 0
      dt := 0x00#8
      st := 0x00#8
      status := .running
      keys := 0x0000#16
      cpuPresent := true }
  else .next (s.raise .constructUnlocked)

/-- An operation on CPU Engine state, defined only once the CPU Engine exists (R245, U21). -/
def State.onCpu (s : State) (t : State) : Host.Outcome State Fault Refusal :=
  if s.cpuPresent then .next t else .refused .cpuAbsent

/-- `KeyPress(k)` (R250): completes a wait, and otherwise does nothing. -/
def State.keyPress (s : State) (k : Fin 16) : State :=
  match s.status with
  | .waitingKeypress r => (s.setReg r (BitVec.ofNat 8 k.val)).setStatus .running
  | .running => s

/-- A counter that stops at zero, one tick later (R251). -/
def tickDown (b : Byte) : Byte := if 0 < b.toNat then b - 1#8 else b

/-- `Tick` (R251, decision D24): both timers. -/
def State.tick (s : State) : State := (s.setDt (tickDown s.dt)).setSt (tickDown s.st)

/-- One host operation (R245): without effect once a fatal condition is recorded (R133). -/
def act (m : Move) (s : State) : Host.Outcome State Fault Refusal :=
  match s.fault with
  | some _ => .next s
  | none =>
    match m with
    | .loadImage bytes => s.loadImage bytes
    | .isLocked => .next s
    | .constructCpu => s.constructCpu
    | .cycle => step s
    | .setKeys mask => s.onCpu (s.setKeys mask)
    | .keyPress k => s.onCpu (s.keyPress k)
    | .tick => s.onCpu s.tick
    | .readFramebuffer => .next s
    | .readMemory _ => .next s
    | .readStatus => s.onCpu s
    | .readTimers => s.onCpu s

/-- What a host operation returns to the host (R245). -/
inductive Answer where
  /-- the operation returns nothing -/
  | nothing
  /-- the write lock, or whether a memory byte can be read -/
  | flag (b : Bool)
  /-- the 2048 cells -/
  | cells (f : Framebuffer)
  /-- one byte of memory, or the fatal condition the address would raise -/
  | byte (b : Except Fault Byte)
  /-- the input/wait status -/
  | status (q : Status)
  /-- `DT` and `ST` -/
  | timers (dt st : Byte)
  deriving DecidableEq, Repr

/-- The value that a read operation returns in a state (R252, R253, R69). The spec leaves open what a read
returns once a fatal condition is recorded (R133, R245): DESIGN CHOICE, log entry 29, it is the item as the state
kept it, with no fault guard. Where `act` refuses the read, the value means nothing. -/
def answer (m : Move) (s : State) : Answer :=
  match m with
  | .isLocked => .flag s.locked
  | .readFramebuffer => .cells s.fb
  | .readMemory a => .byte (s.memRead a)
  | .readStatus => .status s.status
  | .readTimers => .timers s.dt s.st
  | .loadImage _ | .constructCpu | .cycle | .setKeys _ | .keyPress _ | .tick => .nothing

/-- A sequence of host operations, in any order (R254), up to the first that is refused. -/
def run : List Move → State → Host.Outcome State Fault Refusal
  | [], s => .next s
  | m :: ms, s =>
    match act m s with
    | .next t => run ms t
    | .fault c => .fault c
    | .refused r => .refused r

end Sys2Proof.Machine
end

