-- ==== Sys2Proof/Safety.lean ====
section
/-! DEFINITION. What counts as a good state, and the frames that claims are stated with. -/

namespace Sys2Proof.Machine

/-- No fatal condition has happened (R36, R230). -/
def State.good (s : State) : Prop := s.fault = none

/-- The invariant of the machine: memory in its canonical form; no CPU Engine on an unlocked Memory Unit
(R34, R272); and, until a fatal condition happens, `pc` at most 0x10FE (R24, R141), every stacked return
address at most 0x1000, and every stack slot at or above `sp` zero (R29, D32). -/
def State.Inv (s : State) : Prop :=
  s.mem.wf = true ∧
  (s.cpuPresent = true → s.locked = true) ∧
  (s.fault = none →
    s.pc.toNat ≤ 0x10FE ∧
    ∀ k : Fin 16, s.stack[k].toNat ≤ 0x1000 ∧ (s.sp.val ≤ k.val → s.stack[k] = 0x0000#16))

/-- Every byte of memory reads as before. -/
def SameBytes (s t : State) : Prop := ∀ a, t.mem.read a = s.mem.read a

/-- Nothing but general registers may differ. -/
def OnlyRegs (s t : State) : Prop := t = { s with v := t.v } ∧ SameBytes s t

/-- Nothing but `pc` may differ. -/
def OnlyPc (s t : State) : Prop := t = { s with pc := t.pc } ∧ SameBytes s t

/-- Nothing but `I` may differ. -/
def OnlyIndex (s t : State) : Prop := t = { s with i := t.i } ∧ SameBytes s t

/-- Nothing but memory may differ. -/
def OnlyMem (s t : State) : Prop := t = { s with mem := t.mem }

/-- Nothing but general registers and the framebuffer may differ. -/
def OnlyRegsFb (s t : State) : Prop := t = { s with v := t.v, fb := t.fb } ∧ SameBytes s t

/-- The sprite that `DRW Vx, Vy, n` would draw in this state has a set bit on the cell `(cx, cy)`: some row
and column of it, taken modulo the screen, land there (R201, R202). -/
def State.spriteCovers (s : State) (x y : Reg) (n : Height) (cx : Fin 64) (cy : Fin 32) : Prop :=
  ∃ row < n.val, ∃ col < 8,
    (s.mem.read (s.ea row)).getLsbD (7 - col) = true ∧
    cx.val = ((s.reg x).toNat + col) % 64 ∧ cy.val = ((s.reg y).toNat + row) % 32

/-- The instruction's field `x` is 15, so that it names the flag register as its first operand (R21). -/
def namesFlag : Instr → Bool
  | .seImm x _ | .sneImm x _ | .seReg x _ | .ldImm x _ | .addImm x _ | .ldReg x _ | .orReg x _ | .andReg x _
  | .xorReg x _ | .addReg x _ | .subReg x _ | .shr x _ | .subnReg x _ | .shl x _ | .sneReg x _ | .rnd x _
  | .drw x _ _ | .skp x | .sknp x | .ldVxDt x | .ldVxK x | .ldDtVx x | .ldStVx x | .addIVx x | .ldFVx x
  | .ldBVx x | .storeRegs x | .loadRegs x => x == 15
  | .cls | .ret | .sys _ | .jp _ | .call _ | .ldI _ | .jpV0 _ => false

/-- The six instructions that write `V[15]` as a side effect (the table of R21). -/
def writesFlag : Instr → Bool
  | .addReg _ _ | .subReg _ _ | .subnReg _ _ | .shr _ _ | .shl _ _ | .drw _ _ _ => true
  | .cls | .ret | .sys _ | .jp _ | .call _ | .seImm _ _ | .sneImm _ _ | .seReg _ _ | .ldImm _ _
  | .addImm _ _ | .ldReg _ _ | .orReg _ _ | .andReg _ _ | .xorReg _ _ | .sneReg _ _ | .ldI _ | .jpV0 _
  | .rnd _ _ | .skp _ | .sknp _ | .ldVxDt _ | .ldVxK _ | .ldDtVx _ | .ldStVx _ | .addIVx _ | .ldFVx _
  | .ldBVx _ | .storeRegs _ | .loadRegs _ => false

/-- The three instructions that write `I` (R25). -/
def writesIndex : Instr → Bool
  | .ldI _ | .ldFVx _ | .addIVx _ => true
  | .cls | .ret | .sys _ | .jp _ | .call _ | .seImm _ _ | .sneImm _ _ | .seReg _ _ | .ldImm _ _
  | .addImm _ _ | .ldReg _ _ | .orReg _ _ | .andReg _ _ | .xorReg _ _ | .addReg _ _ | .subReg _ _
  | .shr _ _ | .subnReg _ _ | .shl _ _ | .sneReg _ _ | .jpV0 _ | .rnd _ _ | .drw _ _ _ | .skp _ | .sknp _
  | .ldVxDt _ | .ldVxK _ | .ldDtVx _ | .ldStVx _ | .ldBVx _ | .storeRegs _ | .loadRegs _ => false

/-- The instructions whose rules name a fatal condition (R231). -/
def mayRaise : Instr → Bool
  | .ret | .sys _ | .call _ | .drw _ _ _ | .skp _ | .sknp _ | .ldBVx _ | .storeRegs _ | .loadRegs _ => true
  | .cls | .jp _ | .seImm _ _ | .sneImm _ _ | .seReg _ _ | .ldImm _ _ | .addImm _ _ | .ldReg _ _
  | .orReg _ _ | .andReg _ _ | .xorReg _ _ | .addReg _ _ | .subReg _ _ | .shr _ _ | .subnReg _ _
  | .shl _ _ | .sneReg _ _ | .ldI _ | .jpV0 _ | .rnd _ _ | .ldVxDt _ | .ldVxK _ | .ldDtVx _ | .ldStVx _
  | .addIVx _ | .ldFVx _ => false

/-- The machine is parked (R136, D28): the two bytes at `pc` encode a jump to `pc`. DESIGN CHOICE, log entry 30:
`pc` and memory alone decide it, as in D28, so a waiting, faulted or not yet constructed machine whose `pc` stands
on such a jump counts as parked, although its next cycle does not fetch. -/
def State.parked (s : State) : Prop := s.memReadWord s.pc.toNat = .ok (fmtNNN 0x1#4 (s.pc.setWidth 12)) ∧
  s.pc.toNat < 4096

end Sys2Proof.Machine
end

