-- ==== Sys2Proof/Certificates/Slice0/Obligations.lean ====
section
/-! DEFINITION. The statements for the provers: what the numbered rules of the spec say the instructions
and the machine do. A meaning finds `pc` already advanced past its instruction (R131), so below the `pc`
of the state before is the address of the next sequential instruction. The opcode patterns in `decodeOp`
clauses are those of R105, of which the source prints only `00E0`, `1nnn`, `6xkk`, `Dxyn` and `Fx0A`; the others,
and the strictness of R106, are general knowledge and decision D3 (log entry 9), named where a statement has
them. -/

open Sys2Proof Sys2Proof.Machine

/-! ## Encoding -/

/-- R104, R105: decoding the two bytes of an encoded well-formed instruction gives that instruction, with
every operand at every value, and leaves the bytes after it. -/
def Obligations.DecodeOfEncodeIsTheInstruction : Prop :=
  ∀ (i : Instr) (rest : List Byte), i.wellFormed = true → decode (encode i ++ rest) = .ok (i, rest)

/-- R104, R105: an opcode that decodes is the encoding of what it decodes to, and that is well-formed, so
no two opcodes stand for one instruction and no bit of an opcode is lost (the ignored `y` of SHR and SHL
is carried, R113). -/
def Obligations.EncodeOfDecodeIsTheOpcode : Prop :=
  ∀ (op : Word) (i : Instr), decodeOp op = some i → i.wellFormed = true ∧ encodeOp i = op

/-- R106 (decision D3, log entry 9): the opcodes that do not decode are exactly the five groups of its table. -/
def Obligations.UndecodedOpcodesAreTheIllegalGroups : Prop :=
  ∀ op : Word, decodeOp op = none ↔
    let n3 := op.toNat / 4096
    let n := op.toNat % 16
    let kk := op.toNat % 256
    (n3 = 5 ∧ n ≠ 0) ∨
    (n3 = 8 ∧ (n = 8 ∨ n = 9 ∨ n = 10 ∨ n = 11 ∨ n = 12 ∨ n = 13 ∨ n = 15)) ∨
    (n3 = 9 ∧ n ≠ 0) ∨
    (n3 = 14 ∧ kk ≠ 0x9E ∧ kk ≠ 0xA1) ∨
    (n3 = 15 ∧ kk ≠ 0x07 ∧ kk ≠ 0x0A ∧ kk ≠ 0x15 ∧ kk ≠ 0x18 ∧ kk ≠ 0x1E ∧ kk ≠ 0x29 ∧ kk ≠ 0x33 ∧
      kk ≠ 0x55 ∧ kk ≠ 0x65)

/-- The five opcodes the source prints (S6 to S10) and a few more of `30_encoding.md` R105 decode as the
spec says, and one illegal opcode does not (`8xy4`, `ExA1` and the strict `5xy0` are log entry 9, D3). -/
def Obligations.PrintedOpcodesDecode : Prop :=
  decode [0x00#8, 0xE0#8] = .ok (.cls, []) ∧
  decode [0x1A#8, 0xBC#8] = .ok (.jp 0xABC#12, []) ∧
  decode [0x6A#8, 0x15#8] = .ok (.ldImm 10 0x15#8, []) ∧
  decode [0xDA#8, 0xB4#8] = .ok (.drw 10 11 4, []) ∧
  decode [0xF0#8, 0x0A#8] = .ok (.ldVxK 0, []) ∧
  decode [0x81#8, 0x24#8] = .ok (.addReg 1 2, []) ∧
  decode [0xE1#8, 0xA1#8] = .ok (.sknp 1, []) ∧
  decode [0x51#8, 0x21#8] = .error (.decodeFailure 0x5121#16)

/-! ## The cycle -/

/-- R130, R131: when the two bytes at `pc` decode to an instruction, a cycle of a running machine is that
instruction's meaning on the state whose `pc` has been advanced by 2. -/
def Obligations.StepRunsTheDecodedInstruction : Prop :=
  ∀ (s : State) (i : Instr), s.fault = none → s.cpuPresent = true → s.status = .running →
    s.pc.toNat + 1 < 4096 →
    decode [s.mem.read s.pc.toNat, s.mem.read (s.pc.toNat + 1)] = .ok (i, []) →
    step s = exec i { s with pc := s.pc + 2#16 }

/-- R132: while the status is waiting, a cycle changes no state; only a key press changes the status, and
after it the machine runs on with `pc` where it was. -/
def Obligations.WaitingMachineOnlyLeavesByKeyPress : Prop :=
  ∀ (s : State) (r : Reg), s.status = .waitingKeypress r → s.fault = none → s.cpuPresent = true →
    step s = .next s ∧
    (∀ (m : Move) (t : State), act m s = .next t → t.status ≠ s.status → ∃ k, m = .keyPress k) ∧
    (∀ k : Fin 16, ∃ t, act (.keyPress k) s = .next t ∧ t.status = .running ∧ t.pc = s.pc)

/-- R133 (decision D18): once a fatal condition is recorded, no cycle and no host operation changes any
state. -/
def Obligations.FaultedMachineNeverChanges : Prop :=
  ∀ (s : State) (c : Fault) (m : Move), s.fault = some c → step s = .next s ∧ act m s = .next s

/-- R70, R134, R233 (decision D11): a fetch at 0x0FFF or above is fatal, with the first address past the
end that it touches, and leaves `pc` unadvanced. -/
def Obligations.FetchPastTheEndIsFatal : Prop :=
  ∀ s : State, s.fault = none → s.cpuPresent = true → s.status = .running → 0x0FFF ≤ s.pc.toNat →
    ∃ t, step s = .next t ∧ t.fault = some (.addressOutOfRange (max s.pc.toNat 0x1000)) ∧ t.pc = s.pc

/-- R232: an opcode that does not decode is fatal `DecodeFailure(op)`, with `pc` advanced. -/
def Obligations.UndecodableOpcodeIsFatal : Prop :=
  ∀ (s : State) (op : Word), s.fault = none → s.cpuPresent = true → s.status = .running →
    s.memReadWord s.pc.toNat = .ok op → decodeOp op = none →
    ∃ t, step s = .next t ∧ t.fault = some (.decodeFailure op) ∧ t.pc = s.pc + 2#16

/-- The host's placing of a table word: the very next step runs the instruction that the word decodes to,
on the state whose `pc` is 2 past where the word stands (log entry 7). -/
def Obligations.PlacedOpcodeRunsNext : Prop :=
  ∀ (s : State) (w : Nat) (i : Instr), s.mem.wf = true → decodeTableWord 16 w = some i →
    step (s.withFetchWord 16 w) =
      exec i { s.withFetchWord 16 w with pc := (s.withFetchWord 16 w).pc + 2#16 }

/-! ## Memory -/

/-- R66: a byte read returns the byte, in every region and in both lock states, and at 4096 or above it is
`AddressOutOfRange`. -/
def Obligations.ByteReadReturnsTheByteOrIsFatal : Prop :=
  ∀ (s : State) (a : Nat) (l : Bool),
    (4096 ≤ a → { s with locked := l }.memRead a = .error (.addressOutOfRange a)) ∧
    (a < 4096 → { s with locked := l }.memRead a = .ok (s.mem.read a))

/-- R67, R68 (decision D12 for the fatal case): a byte write changes memory alone, and in memory the byte
at its address alone, where the lock and the region let it: anywhere while unlocked; when locked in the
working region, and below 0x200 by the parameter. At 4096 or above it is fatal. -/
def Obligations.ByteWriteObeysTheLock : Prop :=
  ∀ (s : State) (a : Nat) (b : Byte), s.mem.wf = true →
    (a < 4096 → ∃ t, s.memWrite a b = .go t ∧ t = { s with mem := t.mem } ∧ t.mem.wf = true ∧
      ∀ c, t.mem.read c =
        if c = a ∧ (s.locked = false ∨ (a < 0x200 ∧ s.bootWritable = true) ∨ 0x600 ≤ a) then b
        else s.mem.read c) ∧
    (4096 ≤ a → ∃ t, s.memWrite a b = .halted t ∧ (s.fault = none → t.fault = some (.addressOutOfRange a)))

/-- R70, R72 (decision D11): a word read is big-endian, at any address, and out of range at the first of
its two bytes that does not exist. -/
def Obligations.WordReadIsBigEndian : Prop :=
  ∀ (s : State) (a : Nat),
    (a + 1 < 4096 → ∃ w, s.memReadWord a = .ok w ∧
      w.toNat = 256 * (s.mem.read a).toNat + (s.mem.read (a + 1)).toNat) ∧
    (a = 4095 → s.memReadWord a = .error (.addressOutOfRange 4096)) ∧
    (4096 ≤ a → s.memReadWord a = .error (.addressOutOfRange a))

/-- R71 (decision D11, log entry 14): a word write is two byte writes, the high byte at the lower address and
first, each routed by the lock on its own. At 0xFFF the high byte is written and then the write is
`AddressOutOfRange(0x1000)`; at 4096 or above it is `AddressOutOfRange` of the address, and no byte changes. That
the state keeps the written byte after the raise is R71's own text and log entry 6. -/
def Obligations.WordWriteRoutesEachByte : Prop :=
  ∀ (s : State) (a : Nat) (w : Word), s.mem.wf = true →
    (a + 1 < 4096 → ∃ t, s.memWriteWord a w = .go t ∧ t = { s with mem := t.mem } ∧
      ∀ c, (t.mem.read c).toNat =
        if c = a ∧ s.writable a = true then w.toNat / 256
        else if c = a + 1 ∧ s.writable (a + 1) = true then w.toNat % 256
        else (s.mem.read c).toNat) ∧
    (a = 4095 → ∃ t, s.memWriteWord a w = .halted t ∧ t = { s with mem := t.mem, fault := t.fault } ∧
      (s.fault = none → t.fault = some (.addressOutOfRange 4096)) ∧
      ∀ c, (t.mem.read c).toNat = if c = 4095 then w.toNat / 256 else (s.mem.read c).toNat) ∧
    (4096 ≤ a → ∃ t, s.memWriteWord a w = .halted t ∧ t = { s with fault := t.fault } ∧ SameBytes s t ∧
      (s.fault = none → t.fault = some (.addressOutOfRange a)))

/-- R75 (decision D20): an image of at most 3584 bytes is copied to 0x200 upward, whatever the region, and
the lock engages; nothing else changes. A longer one is fatal. -/
def Obligations.ImageLoadCopiesAndLocks : Prop :=
  ∀ (s : State) (bytes : List Byte), s.mem.wf = true → s.fault = none → s.locked = false →
    s.cpuPresent = false →
    (bytes.length ≤ 3584 → ∃ t, act (.loadImage bytes) s = .next t ∧
      t = { s with mem := t.mem, locked := true } ∧ t.mem.wf = true ∧
      ∀ a, t.mem.read a =
        if 0x200 ≤ a ∧ a < 0x200 + bytes.length then bytes.getD (a - 0x200) 0x00#8 else s.mem.read a) ∧
    (3584 < bytes.length → ∃ t, act (.loadImage bytes) s = .next t ∧
      t.fault = some (.addressOutOfRange 0x1000))

/-- R39, R270 to R273 (decisions D9, D10: every value but `pc` is the spec's own choice): the state after
the three stages of bring-up, for every boot image, every value of the boot parameter and every image of
at most 3584 bytes. -/
def Obligations.BringUpLeavesTheLaunchState : Prop :=
  ∀ (boot : Vector Byte 512) (w : Bool) (bytes : List Byte), bytes.length ≤ 3584 →
    ∃ t, run [.loadImage bytes, .constructCpu] (construct boot w) = .next t ∧
      t.pc = 0x0200#16 ∧ (∀ r, t.reg r = 0x00#8) ∧ t.i = 0x0000#16 ∧ t.sp = 0 ∧
      (∀ k : Fin 16, t.stack[k] = 0x0000#16) ∧ t.dt = 0x00#8 ∧ t.st = 0x00#8 ∧ t.status = .running ∧
      t.keys = 0x0000#16 ∧ t.locked = true ∧ (∀ x y, t.cell x y = false) ∧ t.fault = none ∧
      t.cpuPresent = true ∧ t.bootWritable = w ∧
      ∀ a, t.mem.read a =
        if a < 0x200 then boot.toList.getD a 0x00#8
        else if a < 0x200 + bytes.length then bytes.getD (a - 0x200) 0x00#8
        else 0x00#8

/-- R39, R64, R273: the model's reset state is bring-up with the recommended parameters (the model's
choice, log entries 1 and 2) and the empty image. -/
def Obligations.ResetIsBringUpWithTheEmptyImage : Prop :=
  run [.loadImage [], .constructCpu] (construct recommendedBootImage true) = .next State.reset

/-- R235: constructing the CPU Engine while the Memory Unit is unlocked is fatal `ConstructUnlocked`, and
no cycle runs then or after. That a cycle before it is refused as `cpuAbsent` is the model's choice (log entry 25);
that the CPU Engine stays absent and a later cycle answers the same state rests on log entry 6 (D18, R133). -/
def Obligations.ConstructingUnlockedIsFatal : Prop :=
  ∀ s : State, s.fault = none → s.cpuPresent = false → s.locked = false →
    ∃ t, act .constructCpu s = .next t ∧ t.fault = some .constructUnlocked ∧ t.cpuPresent = false ∧
      step s = .refused .cpuAbsent ∧ step t = .next t

/-! ## Display -/

/-- R77: `FbDraw` XORs the bit into its cell, answers whether the cell equalled the bit before, and changes
nothing else. -/
def Obligations.FbDrawXorsAndReports : Prop :=
  ∀ (s : State) (x : Fin 64) (y : Fin 32) (bit : Bool),
    (s.fbDraw x y bit).1 = decide (s.cell x y = bit) ∧
    (s.fbDraw x y bit).2 = { s with fb := (s.fbDraw x y bit).2.fb } ∧
    (s.fbDraw x y bit).2.cell x y = (s.cell x y ^^ bit) ∧
    ∀ cx cy, ¬ (cx = x ∧ cy = y) → (s.fbDraw x y bit).2.cell cx cy = s.cell cx cy

/-- R200: CLS, opcode 0x00E0, zeros every cell of the framebuffer and touches nothing else. -/
def Obligations.ClsZeroesTheFramebuffer : Prop :=
  decodeOp 0x00E0#16 = some .cls ∧
  ∀ s : State, ∃ t, exec .cls s = .next t ∧ (∀ x y, t.cell x y = false) ∧
    t = { s with fb := t.fb } ∧ SameBytes s t

/-- R201, R202 (decision D6 when `x` or `y` is 15): when every row of the sprite is in memory, DRW toggles
exactly the cells under a set bit of the sprite, sets `V[15]` to 1 if one of them was lit and to 0
otherwise, and changes nothing else. -/
def Obligations.DrwDrawsTheSprite : Prop :=
  ∀ (x y : Reg) (n : Height) (s : State), (∀ row, row < n.val → s.ea row < 4096) →
    ∃ t, exec (.drw x y n) s = .next t ∧ OnlyRegsFb s t ∧
      (∀ r, r ≠ 15 → t.reg r = s.reg r) ∧
      (∀ cx cy, t.cell cx cy = true ↔ ¬ (s.cell cx cy = true ↔ s.spriteCovers x y n cx cy)) ∧
      ((∃ cx cy, s.cell cx cy = true ∧ s.spriteCovers x y n cx cy) → t.reg 15 = 0x01#8) ∧
      ((¬ ∃ cx cy, s.cell cx cy = true ∧ s.spriteCovers x y n cx cy) → t.reg 15 = 0x00#8)

/-- S3, R201: drawing a sprite again at the same place with nothing in between restores the framebuffer,
and the second DRW reports a collision exactly when a cell under a set sprite bit was unlit at first. -/
def Obligations.DrawingTwiceRestoresTheFramebuffer : Prop :=
  ∀ (x y : Reg) (n : Height) (s t u : State), (∀ row, row < n.val → s.ea row < 4096) →
    exec (.drw x y n) s = .next t → t.reg x = s.reg x → t.reg y = s.reg y →
    exec (.drw x y n) t = .next u →
    u.fb = s.fb ∧
    (u.reg 15 = 0x01#8 ↔ ∃ cx cy, s.cell cx cy = false ∧ s.spriteCovers x y n cx cy)

/-! ## Control transfer -/

/-- R140: JP nnn, `1nnn`, sets `pc` to the address, zero-extended, and touches nothing else. -/
def Obligations.JpSetsPcToTheAddress : Prop :=
  ∀ (nnn : Addr) (s : State), decodeOp (fmtNNN 0x1#4 nnn) = some (.jp nnn) ∧
    ∃ t, exec (.jp nnn) s = .next t ∧ t.pc.toNat = nnn.toNat ∧ OnlyPc s t

/-- R141 (decision D27; pattern `Bnnn`: log entry 9, D3): JP V0, nnn sets `pc` to the sum, at most 0x10FE, not reduced to 12 bits. -/
def Obligations.JpV0SetsPcToTheSum : Prop :=
  ∀ (nnn : Addr) (s : State), decodeOp (fmtNNN 0xB#4 nnn) = some (.jpV0 nnn) ∧
    ∃ t, exec (.jpV0 nnn) s = .next t ∧ t.pc.toNat = (s.reg 0).toNat + nnn.toNat ∧ t.pc.toNat ≤ 0x10FE ∧
      OnlyPc s t

/-- R142, R28 (pattern `2nnn`: log entry 9, D3): CALL with fewer than sixteen words on the stack pushes `pc`, the return address, and jumps;
no other slot and nothing else changes. -/
def Obligations.CallPushesTheReturnAddress : Prop :=
  ∀ (nnn : Addr) (s : State), decodeOp (fmtNNN 0x2#4 nnn) = some (.call nnn) ∧
    (s.sp.val < 16 →
      ∃ t, exec (.call nnn) s = .next t ∧ t.pc.toNat = nnn.toNat ∧ t.sp.val = s.sp.val + 1 ∧
        (∀ k : Fin 16, t.stack[k] = if k.val = s.sp.val then s.pc else s.stack[k]) ∧
        t = { s with pc := t.pc, sp := t.sp, stack := t.stack } ∧ SameBytes s t)

/-- R143, R29 (decision D32 for the cleared slot; pattern `00EE`: log entry 9, D3): RET with a word on the stack pops it into `pc` and
clears its slot; no other slot and nothing else changes. -/
def Obligations.RetPopsThePc : Prop :=
  decodeOp 0x00EE#16 = some .ret ∧
  ∀ (s : State) (top : Fin 16), s.sp.val = top.val + 1 →
    ∃ t, exec .ret s = .next t ∧ t.pc = s.stack[top] ∧ t.sp.val = top.val ∧
      (∀ k : Fin 16, t.stack[k] = if k = top then 0x0000#16 else s.stack[k]) ∧
      t = { s with pc := t.pc, sp := t.sp, stack := t.stack } ∧ SameBytes s t

/-- R28, R29, R236, R237 (decision D7): a CALL with sixteen words on the stack is fatal `StackOverflow(pc)`
and a RET with none is fatal `StackUnderflow(pc)`; nothing is written. -/
def Obligations.StackLimitsAreFatal : Prop :=
  ∀ (nnn : Addr) (s : State), s.fault = none →
    (s.sp.val = 16 → exec (.call nnn) s = .next { s with fault := some (.stackOverflow s.pc) }) ∧
    (s.sp.val = 0 → exec .ret s = .next { s with fault := some (.stackUnderflow s.pc) })

/-- R151, R142, R143: a RET right after a CALL brings back the whole state, `pc` at the instruction after
the CALL, from every state with a free, cleared slot (R39, D32). -/
def Obligations.RetUndoesCall : Prop :=
  ∀ (nnn : Addr) (s : State) (k : Fin 16), s.sp.val = k.val → s.stack[k] = 0x0000#16 →
    ∃ t, exec (.call nnn) s = .next t ∧ exec .ret t = .next s

/-- R144 to R147: the four skips on registers, with their encodings; `pc` advances by a further 2 exactly
when the comparison holds, and nothing else changes. The four patterns and the refusal of the other `5xyN`
and `9xyN` are log entry 9 (D3), the sum modulo 65536 is log entry 15 (D13). -/
def Obligations.SkipsCompareRegisters : Prop :=
  ∀ (x y : Reg) (kk : Byte) (n : Nibble) (s : State),
    (decodeOp (fmtXKK 0x3#4 x kk) = some (.seImm x kk) ∧ decodeOp (fmtXKK 0x4#4 x kk) = some (.sneImm x kk) ∧
      decodeOp (fmtXYN 0x5#4 x y n) = (if n = 0#4 then some (.seReg x y) else none) ∧
      decodeOp (fmtXYN 0x9#4 x y n) = (if n = 0#4 then some (.sneReg x y) else none)) ∧
    (∃ t, exec (.seImm x kk) s = .next t ∧ OnlyPc s t ∧
      t.pc.toNat = if s.reg x = kk then (s.pc.toNat + 2) % 65536 else s.pc.toNat) ∧
    (∃ t, exec (.sneImm x kk) s = .next t ∧ OnlyPc s t ∧
      t.pc.toNat = if s.reg x ≠ kk then (s.pc.toNat + 2) % 65536 else s.pc.toNat) ∧
    (∃ t, exec (.seReg x y) s = .next t ∧ OnlyPc s t ∧
      t.pc.toNat = if s.reg x = s.reg y then (s.pc.toNat + 2) % 65536 else s.pc.toNat) ∧
    (∃ t, exec (.sneReg x y) s = .next t ∧ OnlyPc s t ∧
      t.pc.toNat = if s.reg x ≠ s.reg y then (s.pc.toNat + 2) % 65536 else s.pc.toNat)

/-- R148: every `0nnn` but 0x00E0 and 0x00EE decodes to SYS, and executing SYS is always fatal
`UnimplementedOperation(op)`. That every other `0nnn` is SYS is log entry 9 (D3); the raise is R148 and R234. -/
def Obligations.SysIsAlwaysFatal : Prop :=
  ∀ (nnn : Addr) (s : State), nnn ≠ 0x0E0#12 → nnn ≠ 0x0EE#12 → s.fault = none →
    decodeOp (fmtNNN 0x0#4 nnn) = some (.sys nnn) ∧
    ∃ t, exec (.sys nnn) s = .next t ∧ t.fault = some (.unimplementedOperation (fmtNNN 0x0#4 nnn))

/-! ## Loads and stores -/

/-- R160, R161: the register loads, with their encodings (the pattern `8xy0` is log entry 9, D3). -/
def Obligations.RegisterLoadsWriteVx : Prop :=
  ∀ (x y : Reg) (kk : Byte) (s : State),
    (decodeOp (fmtXKK 0x6#4 x kk) = some (.ldImm x kk) ∧ decodeOp (fmtXYN 0x8#4 x y 0x0#4) = some (.ldReg x y)) ∧
    (∃ t, exec (.ldImm x kk) s = .next t ∧ OnlyRegs s t ∧
      ∀ r, t.reg r = if r = x then kk else s.reg r) ∧
    (∃ t, exec (.ldReg x y) s = .next t ∧ OnlyRegs s t ∧
      ∀ r, t.reg r = if r = x then s.reg y else s.reg r)

/-- R162, R184: LD I, `Annn`, sets `I` to the address, zero-extended, and ADD I, Vx, `Fx1E`, adds `V[x]` to
`I` modulo 65536; no flag, and nothing but `I` changes (both patterns are log entry 9, D3). -/
def Obligations.IndexLoadAndAddSetI : Prop :=
  ∀ (x : Reg) (nnn : Addr) (s : State),
    (decodeOp (fmtNNN 0xA#4 nnn) = some (.ldI nnn) ∧ decodeOp (fmtXKK 0xF#4 x 0x1E#8) = some (.addIVx x)) ∧
    (∃ t, exec (.ldI nnn) s = .next t ∧ OnlyIndex s t ∧ t.i.toNat = nnn.toNat) ∧
    (∃ t, exec (.addIVx x) s = .next t ∧ OnlyIndex s t ∧
      t.i.toNat = (s.i.toNat + (s.reg x).toNat) % 65536)

/-- R163 (decision D23: no masking of the digit; pattern: log entry 9, D3): LD F, Vx, `Fx29`, sets `I` to five times `V[x]`. -/
def Obligations.LdFSetsIToTheGlyph : Prop :=
  ∀ (x : Reg) (s : State), decodeOp (fmtXKK 0xF#4 x 0x29#8) = some (.ldFVx x) ∧
    ∃ t, exec (.ldFVx x) s = .next t ∧ OnlyIndex s t ∧ t.i.toNat = 5 * (s.reg x).toNat

/-- R164, R67, R167: when its three addresses exist, LD B stores the hundreds, tens and ones digits of
`V[x]` at `I`, `I + 1`, `I + 2`, each where the lock lets it, and nothing else changes (pattern `Fx33`: log entry 9, D3). -/
def Obligations.LdBStoresTheDecimalDigits : Prop :=
  ∀ (x : Reg) (s : State), decodeOp (fmtXKK 0xF#4 x 0x33#8) = some (.ldBVx x) ∧
    (s.mem.wf = true → s.ea 2 < 4096 →
      ∃ t, exec (.ldBVx x) s = .next t ∧ OnlyMem s t ∧
        (∀ j, j < 3 → s.writable (s.ea j) = true → (t.mem.read (s.ea j)).toNat =
          if j = 0 then (s.reg x).toNat / 100
          else if j = 1 then (s.reg x).toNat / 10 % 10
          else (s.reg x).toNat % 10) ∧
        ∀ a, ((∀ j, j < 3 → a ≠ s.ea j) ∨ s.writable a = false) → t.mem.read a = s.mem.read a)

/-- R165, R67, R167: when all its addresses exist, LD [I], Vx stores `V[k]` at `I + k` for `k` = 0..x, each
where the lock lets it, and nothing else changes, `I` among it (pattern `Fx55`: log entry 9, D3). -/
def Obligations.StoreRegsStoresTheBlock : Prop :=
  ∀ (x : Reg) (s : State), decodeOp (fmtXKK 0xF#4 x 0x55#8) = some (.storeRegs x) ∧
    (s.mem.wf = true → s.ea x.val < 4096 →
      ∃ t, exec (.storeRegs x) s = .next t ∧ OnlyMem s t ∧
        (∀ k : Reg, k ≤ x → s.writable (s.ea k.val) = true → t.mem.read (s.ea k.val) = s.reg k) ∧
        ∀ a, ((∀ k : Reg, k ≤ x → a ≠ s.ea k.val) ∨ s.writable a = false) → t.mem.read a = s.mem.read a)

/-- R166, R167: when all its addresses exist, LD Vx, [I] loads `V[k]` from `I + k` for `k` = 0..x; no other
register and nothing else changes, `I` among it (pattern `Fx65`: log entry 9, D3). -/
def Obligations.LoadRegsLoadsTheBlock : Prop :=
  ∀ (x : Reg) (s : State), decodeOp (fmtXKK 0xF#4 x 0x65#8) = some (.loadRegs x) ∧
    (s.ea x.val < 4096 →
      ∃ t, exec (.loadRegs x) s = .next t ∧ OnlyRegs s t ∧
        ∀ r : Reg, t.reg r = if r ≤ x then s.mem.read (s.ea r.val) else s.reg r)

/-- R164 to R167, R201, R233 (decision D11): a block access that runs past 0x0FFF is fatal, with the first
address of the block that does not exist. -/
def Obligations.BlockAccessPastTheEndIsFatal : Prop :=
  ∀ (x y : Reg) (n : Height) (s : State), s.fault = none →
    (4096 ≤ s.ea 2 → ∃ t, exec (.ldBVx x) s = .next t ∧
      t.fault = some (.addressOutOfRange (max s.i.toNat 4096))) ∧
    (4096 ≤ s.ea x.val → ∃ t, exec (.storeRegs x) s = .next t ∧
      t.fault = some (.addressOutOfRange (max s.i.toNat 4096))) ∧
    (4096 ≤ s.ea x.val → ∃ t, exec (.loadRegs x) s = .next t ∧
      t.fault = some (.addressOutOfRange (max s.i.toNat 4096))) ∧
    ((∃ row, row < n.val ∧ 4096 ≤ s.ea row) → ∃ t, exec (.drw x y n) s = .next t ∧
      t.fault = some (.addressOutOfRange (max s.i.toNat 4096)))

/-- R165, R166: a block stored to the working region and loaded back gives the registers their stored
values, whatever the registers held in between. -/
def Obligations.LoadAfterStoreRestoresTheRegisters : Prop :=
  ∀ (x : Reg) (s : State) (between : Vector Byte 16), s.mem.wf = true → 0x600 ≤ s.i.toNat →
    s.ea x.val < 4096 →
    ∃ t u, exec (.storeRegs x) s = .next t ∧ exec (.loadRegs x) { t with v := between } = .next u ∧
      ∀ k : Reg, k ≤ x → u.reg k = s.reg k

/-! ## Arithmetic and logic -/

/-- R182: ADD Vx, kk, `7xkk`, adds modulo 256 and writes no flag (the pattern is log entry 9, D3). -/
def Obligations.AddImmediateWrapsWithoutFlag : Prop :=
  ∀ (x : Reg) (kk : Byte) (s : State), decodeOp (fmtXKK 0x7#4 x kk) = some (.addImm x kk) ∧
    ∃ t, exec (.addImm x kk) s = .next t ∧ OnlyRegs s t ∧
      ∀ r, (t.reg r).toNat = if r = x then ((s.reg x).toNat + kk.toNat) % 256 else (s.reg r).toNat

/-- R183: ADD Vx, Vy, `8xy4`: the sum modulo 256 in `V[x]`, then the carry in `V[15]`, both from the values
before, so for `x = 15` the carry stays, as the source says (the pattern is log entry 9, D3). -/
def Obligations.AddRegisterSetsTheCarry : Prop :=
  ∀ (x y : Reg) (s : State), decodeOp (fmtXYN 0x8#4 x y 0x4#4) = some (.addReg x y) ∧
    ∃ t, exec (.addReg x y) s = .next t ∧ OnlyRegs s t ∧
      ∀ r, (t.reg r).toNat =
        if r = 15 then (if 256 ≤ (s.reg x).toNat + (s.reg y).toNat then 1 else 0)
        else if r = x then ((s.reg x).toNat + (s.reg y).toNat) % 256
        else (s.reg r).toNat

/-- R185: SUB Vx, Vy, `8xy5`: the difference modulo 256 in `V[x]`, then the borrow in `V[15]`, both from the
values before, so for `x = 15` the borrow stays: decision D5 (log entry 11; the source orders ADD only). The
pattern is log entry 9 (D3). -/
def Obligations.SubSetsTheBorrow : Prop :=
  ∀ (x y : Reg) (s : State), decodeOp (fmtXYN 0x8#4 x y 0x5#4) = some (.subReg x y) ∧
    ∃ t, exec (.subReg x y) s = .next t ∧ OnlyRegs s t ∧
      ∀ r, (t.reg r).toNat =
        if r = 15 then (if (s.reg x).toNat < (s.reg y).toNat then 1 else 0)
        else if r = x then ((s.reg x).toNat + 256 - (s.reg y).toNat) % 256
        else (s.reg r).toNat

/-- R186 (decision D4, log entry 10; D5 for `x = 15`, log entry 11; the pattern: log entry 9, D3): SUBN Vx, Vy, `8xy7`: SUB with the operands exchanged. -/
def Obligations.SubnSetsTheBorrow : Prop :=
  ∀ (x y : Reg) (s : State), decodeOp (fmtXYN 0x8#4 x y 0x7#4) = some (.subnReg x y) ∧
    ∃ t, exec (.subnReg x y) s = .next t ∧ OnlyRegs s t ∧
      ∀ r, (t.reg r).toNat =
        if r = 15 then (if (s.reg y).toNat < (s.reg x).toNat then 1 else 0)
        else if r = x then ((s.reg y).toNat + 256 - (s.reg x).toNat) % 256
        else (s.reg r).toNat

/-- R187, R188, R189: OR, AND, XOR, with their encodings (log entry 9, D3); no flag. -/
def Obligations.LogicWritesVxWithoutFlag : Prop :=
  ∀ (x y : Reg) (s : State),
    (decodeOp (fmtXYN 0x8#4 x y 0x1#4) = some (.orReg x y) ∧ decodeOp (fmtXYN 0x8#4 x y 0x2#4) = some (.andReg x y) ∧
      decodeOp (fmtXYN 0x8#4 x y 0x3#4) = some (.xorReg x y)) ∧
    (∃ t, exec (.orReg x y) s = .next t ∧ OnlyRegs s t ∧
      ∀ r, t.reg r = if r = x then s.reg x ||| s.reg y else s.reg r) ∧
    (∃ t, exec (.andReg x y) s = .next t ∧ OnlyRegs s t ∧
      ∀ r, t.reg r = if r = x then s.reg x &&& s.reg y else s.reg r) ∧
    (∃ t, exec (.xorReg x y) s = .next t ∧ OnlyRegs s t ∧
      ∀ r, t.reg r = if r = x then s.reg x ^^^ s.reg y else s.reg r)

/-- R190, R191, R113 (decision D5 for `x = 15`, log entry 11; the patterns `8xy6`, `8xyE`: log entry 9, D3): the shifts by one, with the bit shifted out in `V[15]`, for
SHL as the raw 0x80; `y` makes no difference. -/
def Obligations.ShiftsKeepTheLostBit : Prop :=
  ∀ (x y : Reg) (s : State),
    (decodeOp (fmtXYN 0x8#4 x y 0x6#4) = some (.shr x y) ∧ decodeOp (fmtXYN 0x8#4 x y 0xE#4) = some (.shl x y)) ∧
    (∃ t, exec (.shr x y) s = .next t ∧ OnlyRegs s t ∧
      ∀ r, (t.reg r).toNat =
        if r = 15 then (s.reg x).toNat % 2
        else if r = x then (s.reg x).toNat / 2
        else (s.reg r).toNat) ∧
    (∃ t, exec (.shl x y) s = .next t ∧ OnlyRegs s t ∧
      ∀ r, (t.reg r).toNat =
        if r = 15 then 128 * ((s.reg x).toNat / 128)
        else if r = x then 2 * (s.reg x).toNat % 256
        else (s.reg r).toNat)

/-- S2, R190, R191: SHL then SHR on a register other than the flag loses the high bit, leaves the flag 0,
and after the SHL the flag is the high bit's raw value. -/
def Obligations.ShlThenShrLosesTheHighBit : Prop :=
  ∀ (x y y' : Reg) (s : State), x ≠ 15 →
    ∃ t u, exec (.shl x y) s = .next t ∧ exec (.shr x y') t = .next u ∧
      t.reg 15 = s.reg x &&& 0x80#8 ∧ u.reg x = s.reg x &&& 0x7F#8 ∧ u.reg 15 = 0x00#8

/-- R192 (decision D21, log entry 5; pattern `Cxkk`: log entry 9, D3): RND writes a fresh draw under the mask, so no bit outside the mask, and the draw
is counted; it holds whatever the draws are. -/
def Obligations.RndMasksAFreshDraw : Prop :=
  ∀ (x : Reg) (kk : Byte) (s : State), decodeOp (fmtXKK 0xC#4 x kk) = some (.rnd x kk) ∧
    ∃ t, exec (.rnd x kk) s = .next t ∧ t = { s with v := t.v, draws := s.draws + 1 } ∧ SameBytes s t ∧
      (∀ r, t.reg r = if r = x then Config.random8 s.draws &&& kk else s.reg r) ∧ t.reg x &&& ~~~ kk = 0x00#8

/-! ## Timers, keypad and the host -/

/-- R210, R211, R212: the timer moves, with their encodings (log entry 9, D3). -/
def Obligations.TimerMovesCopyTheByte : Prop :=
  ∀ (x : Reg) (s : State),
    (decodeOp (fmtXKK 0xF#4 x 0x07#8) = some (.ldVxDt x) ∧ decodeOp (fmtXKK 0xF#4 x 0x15#8) = some (.ldDtVx x) ∧
      decodeOp (fmtXKK 0xF#4 x 0x18#8) = some (.ldStVx x)) ∧
    (∃ t, exec (.ldVxDt x) s = .next t ∧ OnlyRegs s t ∧ ∀ r, t.reg r = if r = x then s.dt else s.reg r) ∧
    (∃ t, exec (.ldDtVx x) s = .next t ∧ t = { s with dt := s.reg x } ∧ SameBytes s t) ∧
    (∃ t, exec (.ldStVx x) s = .next t ∧ t = { s with st := s.reg x } ∧ SameBytes s t)

/-- R213, R250 (decision D16): LD Vx, K, `Fx0A`, begins the wait for register `x` whatever keys are held,
changing the status alone; then a press of key `k` puts `k` into that register, alone, and the machine
runs on. -/
def Obligations.KeyWaitEndsWithTheKeyNumber : Prop :=
  ∀ (x : Reg) (k : Fin 16) (s : State), s.fault = none → s.cpuPresent = true →
    decodeOp (fmtXKK 0xF#4 x 0x0A#8) = some (.ldVxK x) ∧
    ∃ t u, exec (.ldVxK x) s = .next t ∧ t = { s with status := .waitingKeypress x } ∧ SameBytes s t ∧
      act (.keyPress k) t = .next u ∧ u = { s with v := u.v, status := .running } ∧
      ∀ r, (u.reg r).toNat = if r = x then k.val else (s.reg r).toNat

/-- R214, R215, R216 (decision D15 for the bit order): SKP and SKNP with a key number of at most 15 skip
exactly when that key's bit is 1, respectively 0, and change nothing but `pc` (patterns `Ex9E`, `ExA1`: log entry 9,
D3; the sum modulo 65536: log entry 15, D13). -/
def Obligations.KeySkipsTestTheMask : Prop :=
  ∀ (x : Reg) (s : State),
    (decodeOp (fmtXKK 0xE#4 x 0x9E#8) = some (.skp x) ∧ decodeOp (fmtXKK 0xE#4 x 0xA1#8) = some (.sknp x)) ∧
    ((s.reg x).toNat ≤ 15 →
      (∃ t, exec (.skp x) s = .next t ∧ OnlyPc s t ∧
        t.pc = if s.keys.getLsbD (s.reg x).toNat = true then s.pc + 2#16 else s.pc) ∧
      (∃ t, exec (.sknp x) s = .next t ∧ OnlyPc s t ∧
        t.pc = if s.keys.getLsbD (s.reg x).toNat = true then s.pc else s.pc + 2#16))

/-- R216, R238 (decision D14): SKP and SKNP with a key number above 15 are fatal. -/
def Obligations.KeyNumberAboveFifteenIsFatal : Prop :=
  ∀ (x : Reg) (s : State), 15 < (s.reg x).toNat → s.fault = none →
    (∃ t, exec (.skp x) s = .next t ∧ t.fault = some (.keyIndexOutOfRange (s.reg x))) ∧
    (∃ t, exec (.sknp x) s = .next t ∧ t.fault = some (.keyIndexOutOfRange (s.reg x)))

/-- R249, R250, R251 (decisions D16, D24): what the host's key mask, an unawaited key press and a tick do to
a constructed machine, and that before construction they are outside the model (U21; that the model refuses them
as `cpuAbsent` is log entry 25). -/
def Obligations.HostMovesWriteTheirSlots : Prop :=
  ∀ (s : State) (mask : Word) (k : Fin 16), s.fault = none →
    (s.cpuPresent = true →
      act (.setKeys mask) s = .next { s with keys := mask } ∧
      (s.status = .running → act (.keyPress k) s = .next s) ∧
      ∃ t, act .tick s = .next t ∧ t = { s with dt := t.dt, st := t.st } ∧
        t.dt.toNat = s.dt.toNat - 1 ∧ t.st.toNat = s.st.toNat - 1) ∧
    (s.cpuPresent = false →
      act (.setKeys mask) s = .refused .cpuAbsent ∧ act (.keyPress k) s = .refused .cpuAbsent ∧
      act .tick s = .refused .cpuAbsent ∧ step s = .refused .cpuAbsent)

/-- R252, R253, R69: what the host's reads return, and that they change nothing; the status and the timers
can be read once the CPU Engine exists. That they return the kept items also after a fatal condition is the model's
choice (log entry 29). -/
def Obligations.HostReadsReturnTheirSlots : Prop :=
  ∀ (s : State) (a : Nat),
    (act .isLocked s = .next s ∧ answer .isLocked s = .flag s.locked) ∧
    (act .readFramebuffer s = .next s ∧ answer .readFramebuffer s = .cells s.fb) ∧
    (a < 4096 → act (.readMemory a) s = .next s ∧ answer (.readMemory a) s = .byte (.ok (s.mem.read a))) ∧
    (s.cpuPresent = true →
      act .readStatus s = .next s ∧ answer .readStatus s = .status s.status ∧
      act .readTimers s = .next s ∧ answer .readTimers s = .timers s.dt s.st)

/-! ## The whole machine -/

/-- R39, R273: the launch state meets the invariant. -/
def Obligations.LaunchStateMeetsTheInvariant : Prop := State.reset.Inv

/-- R24, R29, R34, R272: one cycle from any state that meets the invariant leaves a state that meets it. -/
def Obligations.EveryCycleKeepsTheInvariant : Prop :=
  ∀ s t : State, s.Inv → step s = .next t → t.Inv

/-- R24, R29, R34, R245, R270 to R272: the machine that `Construct` makes meets the invariant, for every boot
image and parameter, and every host operation (image load, CPU construction, cycle, key mask, key press, tick, reads)
takes a state that meets it to a state that meets it. -/
def Obligations.EveryHostMoveKeepsTheInvariant : Prop :=
  (∀ (boot : Vector Byte 512) (w : Bool), (construct boot w).Inv) ∧
  ∀ (m : Move) (s t : State), s.Inv → act m s = .next t → t.Inv

/-- R68, R276, R82: a cycle of a locked machine that does not end in a fatal condition changes no byte of
the program region, and, on a machine whose boot region is hardened, no byte below 0x200 either; and it
changes neither the lock nor the parameter. -/
def Obligations.LockedRegionsAreReadOnly : Prop :=
  ∀ s t : State, s.mem.wf = true → s.locked = true → step s = .next t → t.good →
    t.locked = true ∧ t.bootWritable = s.bootWritable ∧
    (∀ a, 0x200 ≤ a → a < 0x600 → t.mem.read a = s.mem.read a) ∧
    (s.bootWritable = false → ∀ a, a < 0x200 → t.mem.read a = s.mem.read a)

/-- R21, R22, R181: an instruction that completes writes `V[15]` only if it is one of the six flag writers
or its field `x` is 15. -/
def Obligations.OnlyFlagWritersTouchTheFlag : Prop :=
  ∀ (i : Instr) (s t : State), exec i s = .next t → t.good → writesFlag i = false → namesFlag i = false →
    t.reg 15 = s.reg 15

/-- R25, R168: no instruction but LD I, LD F and ADD I changes `I`; no load or store does. -/
def Obligations.OnlyIndexWritersTouchTheIndex : Prop :=
  ∀ (i : Instr) (s t : State), exec i s = .next t → t.good → writesIndex i = false → t.i = s.i

/-- R30, R31, R32, R34: an instruction that completes never writes the key mask, the lock or the machine's
construction; only LD DT writes `DT`, only LD ST writes `ST`, and only LD Vx, K changes the status, to the
wait for its register. -/
def Obligations.ControlStateHasFewWriters : Prop :=
  ∀ (i : Instr) (s t : State), exec i s = .next t → t.good →
    t.keys = s.keys ∧ t.locked = s.locked ∧ t.cpuPresent = s.cpuPresent ∧ t.bootWritable = s.bootWritable ∧
    (t.dt ≠ s.dt → ∃ x, i = .ldDtVx x) ∧ (t.st ≠ s.st → ∃ x, i = .ldStVx x) ∧
    (t.status ≠ s.status → ∃ x, i = .ldVxK x ∧ t.status = .waitingKeypress x)

/-- R109, R230, R231: every instruction answers a next state from every state, and one that its rule gives
no fatal condition records none. -/
def Obligations.EveryInstructionAnswersANextState : Prop :=
  ∀ (i : Instr) (s : State), ∃ t, exec i s = .next t ∧ (mayRaise i = false → t.fault = s.fault)
end

