-- ==== Sys2Proof/Laws/Decode.lean ====
section
/-! SUPPORT. The fields of an encoded opcode, and its two bytes. -/

namespace Sys2Proof

theorem wordOfBytes_toNat (hi lo : Byte) : (wordOfBytes hi lo).toNat = 256 * hi.toNat + lo.toNat := by
  simp only [wordOfBytes, BitVec.toNat_ofNat]; omega

/-- An opcode is the word of its two bytes (R72). -/
theorem wordOfBytes_hi_lo (op : Word) : wordOfBytes (hiByte op) (loByte op) = op := by
  apply BitVec.eq_of_toNat_eq
  simp only [wordOfBytes_toNat, hiByte, loByte, BitVec.extractLsb'_toNat, Nat.shiftRight_eq_div_pow]
  omega

/-- Decoding the bytes of an opcode is decoding the opcode. -/
theorem decode_opBytes (op : Word) (rest : List Byte) : decode (opBytes op ++ rest) =
    match decodeOp op with
    | some i => .ok (i, rest)
    | none => .error (.decodeFailure op) := by
  cases h : decodeOp op <;> simp only [opBytes, List.cons_append, List.nil_append, decode, wordOfBytes_hi_lo, h]

section
variable (n3 n0 : Nibble) (x y : Reg) (kk : Byte) (nnn : Addr)

theorem fmtNNN_toNat : (fmtNNN n3 nnn).toNat = 0x1000 * n3.toNat + nnn.toNat := by
  simp only [fmtNNN, BitVec.toNat_ofNat]; omega

theorem fmtXKK_toNat : (fmtXKK n3 x kk).toNat = 0x1000 * n3.toNat + 0x100 * x.val + kk.toNat := by
  simp only [fmtXKK, BitVec.toNat_ofNat]; omega

theorem fmtXYN_toNat :
    (fmtXYN n3 x y n0).toNat = 0x1000 * n3.toNat + 0x100 * x.val + 0x10 * y.val + n0.toNat := by
  simp only [fmtXYN, BitVec.toNat_ofNat]; omega

@[simp] theorem opN3_fmtNNN : opN3 (fmtNNN n3 nnn) = n3 := by
  apply BitVec.eq_of_toNat_eq
  simp only [opN3, BitVec.extractLsb'_toNat, fmtNNN_toNat, Nat.shiftRight_eq_div_pow]; omega

@[simp] theorem opN3_fmtXKK : opN3 (fmtXKK n3 x kk) = n3 := by
  apply BitVec.eq_of_toNat_eq
  simp only [opN3, BitVec.extractLsb'_toNat, fmtXKK_toNat, Nat.shiftRight_eq_div_pow]; omega

@[simp] theorem opN3_fmtXYN : opN3 (fmtXYN n3 x y n0) = n3 := by
  apply BitVec.eq_of_toNat_eq
  simp only [opN3, BitVec.extractLsb'_toNat, fmtXYN_toNat, Nat.shiftRight_eq_div_pow]; omega

@[simp] theorem opNNN_fmtNNN : opNNN (fmtNNN n3 nnn) = nnn := by
  apply BitVec.eq_of_toNat_eq
  simp only [opNNN, BitVec.extractLsb'_toNat, fmtNNN_toNat, Nat.shiftRight_eq_div_pow]; omega

@[simp] theorem opX_fmtXKK : opX (fmtXKK n3 x kk) = x := by
  apply Fin.ext
  change (opN2 _).toNat = _
  simp only [opN2, BitVec.extractLsb'_toNat, fmtXKK_toNat, Nat.shiftRight_eq_div_pow]; omega

@[simp] theorem opKK_fmtXKK : opKK (fmtXKK n3 x kk) = kk := by
  apply BitVec.eq_of_toNat_eq
  simp only [opKK, BitVec.extractLsb'_toNat, fmtXKK_toNat, Nat.shiftRight_eq_div_pow]; omega

@[simp] theorem opX_fmtXYN : opX (fmtXYN n3 x y n0) = x := by
  apply Fin.ext
  change (opN2 _).toNat = _
  simp only [opN2, BitVec.extractLsb'_toNat, fmtXYN_toNat, Nat.shiftRight_eq_div_pow]; omega

@[simp] theorem opY_fmtXYN : opY (fmtXYN n3 x y n0) = y := by
  apply Fin.ext
  change (opN1 _).toNat = _
  simp only [opN1, BitVec.extractLsb'_toNat, fmtXYN_toNat, Nat.shiftRight_eq_div_pow]; omega

@[simp] theorem opN0_fmtXYN : opN0 (fmtXYN n3 x y n0) = n0 := by
  apply BitVec.eq_of_toNat_eq
  simp only [opN0, BitVec.extractLsb'_toNat, fmtXYN_toNat, Nat.shiftRight_eq_div_pow]; omega

end

end Sys2Proof
end

