-- ==== Sys2Proof/Laws/State.lean ====
section
/-! SUPPORT. What each named update of the state leaves in each field: one lemma per field per update. -/

namespace Sys2Proof.Machine.State

@[simp] theorem setFlag_eq (s : State) (b : Byte) : s.setFlag b = s.setReg 15 b := rfl
@[simp] theorem commit_eq (s : State) (x : Reg) (b f : Byte) : s.commit x b f = (s.setReg x b).setReg 15 f := rfl
@[simp] theorem advancePc_eq (s : State) : s.advancePc = s.setPc (s.pc + 2#16) := rfl
@[simp] theorem fbClear_eq (s : State) : s.fbClear = s.setFb 0#2048 := rfl

@[simp] theorem setReg_v (s : State) (r : Reg) (b : Byte) : (s.setReg r b).v = s.v.set r.val b r.isLt := rfl
@[simp] theorem setReg_pc (s : State) (r : Reg) (b : Byte) : (s.setReg r b).pc = s.pc := rfl
@[simp] theorem setReg_i (s : State) (r : Reg) (b : Byte) : (s.setReg r b).i = s.i := rfl
@[simp] theorem setReg_stack (s : State) (r : Reg) (b : Byte) : (s.setReg r b).stack = s.stack := rfl
@[simp] theorem setReg_sp (s : State) (r : Reg) (b : Byte) : (s.setReg r b).sp = s.sp := rfl
@[simp] theorem setReg_dt (s : State) (r : Reg) (b : Byte) : (s.setReg r b).dt = s.dt := rfl
@[simp] theorem setReg_st (s : State) (r : Reg) (b : Byte) : (s.setReg r b).st = s.st := rfl
@[simp] theorem setReg_status (s : State) (r : Reg) (b : Byte) : (s.setReg r b).status = s.status := rfl
@[simp] theorem setReg_keys (s : State) (r : Reg) (b : Byte) : (s.setReg r b).keys = s.keys := rfl
@[simp] theorem setReg_mem (s : State) (r : Reg) (b : Byte) : (s.setReg r b).mem = s.mem := rfl
@[simp] theorem setReg_locked (s : State) (r : Reg) (b : Byte) : (s.setReg r b).locked = s.locked := rfl
@[simp] theorem setReg_fb (s : State) (r : Reg) (b : Byte) : (s.setReg r b).fb = s.fb := rfl
@[simp] theorem setReg_fault (s : State) (r : Reg) (b : Byte) : (s.setReg r b).fault = s.fault := rfl
@[simp] theorem setReg_cpuPresent (s : State) (r : Reg) (b : Byte) : (s.setReg r b).cpuPresent = s.cpuPresent := rfl
@[simp] theorem setReg_bootWritable (s : State) (r : Reg) (b : Byte) : (s.setReg r b).bootWritable = s.bootWritable := rfl
@[simp] theorem setReg_draws (s : State) (r : Reg) (b : Byte) : (s.setReg r b).draws = s.draws := rfl

@[simp] theorem setPc_v (s : State) (t : Word) : (s.setPc t).v = s.v := rfl
@[simp] theorem setPc_pc (s : State) (t : Word) : (s.setPc t).pc = t := rfl
@[simp] theorem setPc_i (s : State) (t : Word) : (s.setPc t).i = s.i := rfl
@[simp] theorem setPc_stack (s : State) (t : Word) : (s.setPc t).stack = s.stack := rfl
@[simp] theorem setPc_sp (s : State) (t : Word) : (s.setPc t).sp = s.sp := rfl
@[simp] theorem setPc_dt (s : State) (t : Word) : (s.setPc t).dt = s.dt := rfl
@[simp] theorem setPc_st (s : State) (t : Word) : (s.setPc t).st = s.st := rfl
@[simp] theorem setPc_status (s : State) (t : Word) : (s.setPc t).status = s.status := rfl
@[simp] theorem setPc_keys (s : State) (t : Word) : (s.setPc t).keys = s.keys := rfl
@[simp] theorem setPc_mem (s : State) (t : Word) : (s.setPc t).mem = s.mem := rfl
@[simp] theorem setPc_locked (s : State) (t : Word) : (s.setPc t).locked = s.locked := rfl
@[simp] theorem setPc_fb (s : State) (t : Word) : (s.setPc t).fb = s.fb := rfl
@[simp] theorem setPc_fault (s : State) (t : Word) : (s.setPc t).fault = s.fault := rfl
@[simp] theorem setPc_cpuPresent (s : State) (t : Word) : (s.setPc t).cpuPresent = s.cpuPresent := rfl
@[simp] theorem setPc_bootWritable (s : State) (t : Word) : (s.setPc t).bootWritable = s.bootWritable := rfl
@[simp] theorem setPc_draws (s : State) (t : Word) : (s.setPc t).draws = s.draws := rfl

@[simp] theorem setI_v (s : State) (t : Word) : (s.setI t).v = s.v := rfl
@[simp] theorem setI_pc (s : State) (t : Word) : (s.setI t).pc = s.pc := rfl
@[simp] theorem setI_i (s : State) (t : Word) : (s.setI t).i = t := rfl
@[simp] theorem setI_stack (s : State) (t : Word) : (s.setI t).stack = s.stack := rfl
@[simp] theorem setI_sp (s : State) (t : Word) : (s.setI t).sp = s.sp := rfl
@[simp] theorem setI_dt (s : State) (t : Word) : (s.setI t).dt = s.dt := rfl
@[simp] theorem setI_st (s : State) (t : Word) : (s.setI t).st = s.st := rfl
@[simp] theorem setI_status (s : State) (t : Word) : (s.setI t).status = s.status := rfl
@[simp] theorem setI_keys (s : State) (t : Word) : (s.setI t).keys = s.keys := rfl
@[simp] theorem setI_mem (s : State) (t : Word) : (s.setI t).mem = s.mem := rfl
@[simp] theorem setI_locked (s : State) (t : Word) : (s.setI t).locked = s.locked := rfl
@[simp] theorem setI_fb (s : State) (t : Word) : (s.setI t).fb = s.fb := rfl
@[simp] theorem setI_fault (s : State) (t : Word) : (s.setI t).fault = s.fault := rfl
@[simp] theorem setI_cpuPresent (s : State) (t : Word) : (s.setI t).cpuPresent = s.cpuPresent := rfl
@[simp] theorem setI_bootWritable (s : State) (t : Word) : (s.setI t).bootWritable = s.bootWritable := rfl
@[simp] theorem setI_draws (s : State) (t : Word) : (s.setI t).draws = s.draws := rfl

@[simp] theorem setDt_v (s : State) (b : Byte) : (s.setDt b).v = s.v := rfl
@[simp] theorem setDt_pc (s : State) (b : Byte) : (s.setDt b).pc = s.pc := rfl
@[simp] theorem setDt_i (s : State) (b : Byte) : (s.setDt b).i = s.i := rfl
@[simp] theorem setDt_stack (s : State) (b : Byte) : (s.setDt b).stack = s.stack := rfl
@[simp] theorem setDt_sp (s : State) (b : Byte) : (s.setDt b).sp = s.sp := rfl
@[simp] theorem setDt_dt (s : State) (b : Byte) : (s.setDt b).dt = b := rfl
@[simp] theorem setDt_st (s : State) (b : Byte) : (s.setDt b).st = s.st := rfl
@[simp] theorem setDt_status (s : State) (b : Byte) : (s.setDt b).status = s.status := rfl
@[simp] theorem setDt_keys (s : State) (b : Byte) : (s.setDt b).keys = s.keys := rfl
@[simp] theorem setDt_mem (s : State) (b : Byte) : (s.setDt b).mem = s.mem := rfl
@[simp] theorem setDt_locked (s : State) (b : Byte) : (s.setDt b).locked = s.locked := rfl
@[simp] theorem setDt_fb (s : State) (b : Byte) : (s.setDt b).fb = s.fb := rfl
@[simp] theorem setDt_fault (s : State) (b : Byte) : (s.setDt b).fault = s.fault := rfl
@[simp] theorem setDt_cpuPresent (s : State) (b : Byte) : (s.setDt b).cpuPresent = s.cpuPresent := rfl
@[simp] theorem setDt_bootWritable (s : State) (b : Byte) : (s.setDt b).bootWritable = s.bootWritable := rfl
@[simp] theorem setDt_draws (s : State) (b : Byte) : (s.setDt b).draws = s.draws := rfl

@[simp] theorem setSt_v (s : State) (b : Byte) : (s.setSt b).v = s.v := rfl
@[simp] theorem setSt_pc (s : State) (b : Byte) : (s.setSt b).pc = s.pc := rfl
@[simp] theorem setSt_i (s : State) (b : Byte) : (s.setSt b).i = s.i := rfl
@[simp] theorem setSt_stack (s : State) (b : Byte) : (s.setSt b).stack = s.stack := rfl
@[simp] theorem setSt_sp (s : State) (b : Byte) : (s.setSt b).sp = s.sp := rfl
@[simp] theorem setSt_dt (s : State) (b : Byte) : (s.setSt b).dt = s.dt := rfl
@[simp] theorem setSt_st (s : State) (b : Byte) : (s.setSt b).st = b := rfl
@[simp] theorem setSt_status (s : State) (b : Byte) : (s.setSt b).status = s.status := rfl
@[simp] theorem setSt_keys (s : State) (b : Byte) : (s.setSt b).keys = s.keys := rfl
@[simp] theorem setSt_mem (s : State) (b : Byte) : (s.setSt b).mem = s.mem := rfl
@[simp] theorem setSt_locked (s : State) (b : Byte) : (s.setSt b).locked = s.locked := rfl
@[simp] theorem setSt_fb (s : State) (b : Byte) : (s.setSt b).fb = s.fb := rfl
@[simp] theorem setSt_fault (s : State) (b : Byte) : (s.setSt b).fault = s.fault := rfl
@[simp] theorem setSt_cpuPresent (s : State) (b : Byte) : (s.setSt b).cpuPresent = s.cpuPresent := rfl
@[simp] theorem setSt_bootWritable (s : State) (b : Byte) : (s.setSt b).bootWritable = s.bootWritable := rfl
@[simp] theorem setSt_draws (s : State) (b : Byte) : (s.setSt b).draws = s.draws := rfl

@[simp] theorem setStatus_v (s : State) (q : Status) : (s.setStatus q).v = s.v := rfl
@[simp] theorem setStatus_pc (s : State) (q : Status) : (s.setStatus q).pc = s.pc := rfl
@[simp] theorem setStatus_i (s : State) (q : Status) : (s.setStatus q).i = s.i := rfl
@[simp] theorem setStatus_stack (s : State) (q : Status) : (s.setStatus q).stack = s.stack := rfl
@[simp] theorem setStatus_sp (s : State) (q : Status) : (s.setStatus q).sp = s.sp := rfl
@[simp] theorem setStatus_dt (s : State) (q : Status) : (s.setStatus q).dt = s.dt := rfl
@[simp] theorem setStatus_st (s : State) (q : Status) : (s.setStatus q).st = s.st := rfl
@[simp] theorem setStatus_status (s : State) (q : Status) : (s.setStatus q).status = q := rfl
@[simp] theorem setStatus_keys (s : State) (q : Status) : (s.setStatus q).keys = s.keys := rfl
@[simp] theorem setStatus_mem (s : State) (q : Status) : (s.setStatus q).mem = s.mem := rfl
@[simp] theorem setStatus_locked (s : State) (q : Status) : (s.setStatus q).locked = s.locked := rfl
@[simp] theorem setStatus_fb (s : State) (q : Status) : (s.setStatus q).fb = s.fb := rfl
@[simp] theorem setStatus_fault (s : State) (q : Status) : (s.setStatus q).fault = s.fault := rfl
@[simp] theorem setStatus_cpuPresent (s : State) (q : Status) : (s.setStatus q).cpuPresent = s.cpuPresent := rfl
@[simp] theorem setStatus_bootWritable (s : State) (q : Status) : (s.setStatus q).bootWritable = s.bootWritable := rfl
@[simp] theorem setStatus_draws (s : State) (q : Status) : (s.setStatus q).draws = s.draws := rfl

@[simp] theorem setKeys_v (s : State) (m : Word) : (s.setKeys m).v = s.v := rfl
@[simp] theorem setKeys_pc (s : State) (m : Word) : (s.setKeys m).pc = s.pc := rfl
@[simp] theorem setKeys_i (s : State) (m : Word) : (s.setKeys m).i = s.i := rfl
@[simp] theorem setKeys_stack (s : State) (m : Word) : (s.setKeys m).stack = s.stack := rfl
@[simp] theorem setKeys_sp (s : State) (m : Word) : (s.setKeys m).sp = s.sp := rfl
@[simp] theorem setKeys_dt (s : State) (m : Word) : (s.setKeys m).dt = s.dt := rfl
@[simp] theorem setKeys_st (s : State) (m : Word) : (s.setKeys m).st = s.st := rfl
@[simp] theorem setKeys_status (s : State) (m : Word) : (s.setKeys m).status = s.status := rfl
@[simp] theorem setKeys_keys (s : State) (m : Word) : (s.setKeys m).keys = m := rfl
@[simp] theorem setKeys_mem (s : State) (m : Word) : (s.setKeys m).mem = s.mem := rfl
@[simp] theorem setKeys_locked (s : State) (m : Word) : (s.setKeys m).locked = s.locked := rfl
@[simp] theorem setKeys_fb (s : State) (m : Word) : (s.setKeys m).fb = s.fb := rfl
@[simp] theorem setKeys_fault (s : State) (m : Word) : (s.setKeys m).fault = s.fault := rfl
@[simp] theorem setKeys_cpuPresent (s : State) (m : Word) : (s.setKeys m).cpuPresent = s.cpuPresent := rfl
@[simp] theorem setKeys_bootWritable (s : State) (m : Word) : (s.setKeys m).bootWritable = s.bootWritable := rfl
@[simp] theorem setKeys_draws (s : State) (m : Word) : (s.setKeys m).draws = s.draws := rfl

@[simp] theorem setMem_v (s : State) (m : Memory) : (s.setMem m).v = s.v := rfl
@[simp] theorem setMem_pc (s : State) (m : Memory) : (s.setMem m).pc = s.pc := rfl
@[simp] theorem setMem_i (s : State) (m : Memory) : (s.setMem m).i = s.i := rfl
@[simp] theorem setMem_stack (s : State) (m : Memory) : (s.setMem m).stack = s.stack := rfl
@[simp] theorem setMem_sp (s : State) (m : Memory) : (s.setMem m).sp = s.sp := rfl
@[simp] theorem setMem_dt (s : State) (m : Memory) : (s.setMem m).dt = s.dt := rfl
@[simp] theorem setMem_st (s : State) (m : Memory) : (s.setMem m).st = s.st := rfl
@[simp] theorem setMem_status (s : State) (m : Memory) : (s.setMem m).status = s.status := rfl
@[simp] theorem setMem_keys (s : State) (m : Memory) : (s.setMem m).keys = s.keys := rfl
@[simp] theorem setMem_mem (s : State) (m : Memory) : (s.setMem m).mem = m := rfl
@[simp] theorem setMem_locked (s : State) (m : Memory) : (s.setMem m).locked = s.locked := rfl
@[simp] theorem setMem_fb (s : State) (m : Memory) : (s.setMem m).fb = s.fb := rfl
@[simp] theorem setMem_fault (s : State) (m : Memory) : (s.setMem m).fault = s.fault := rfl
@[simp] theorem setMem_cpuPresent (s : State) (m : Memory) : (s.setMem m).cpuPresent = s.cpuPresent := rfl
@[simp] theorem setMem_bootWritable (s : State) (m : Memory) : (s.setMem m).bootWritable = s.bootWritable := rfl
@[simp] theorem setMem_draws (s : State) (m : Memory) : (s.setMem m).draws = s.draws := rfl

@[simp] theorem setFb_v (s : State) (f : Framebuffer) : (s.setFb f).v = s.v := rfl
@[simp] theorem setFb_pc (s : State) (f : Framebuffer) : (s.setFb f).pc = s.pc := rfl
@[simp] theorem setFb_i (s : State) (f : Framebuffer) : (s.setFb f).i = s.i := rfl
@[simp] theorem setFb_stack (s : State) (f : Framebuffer) : (s.setFb f).stack = s.stack := rfl
@[simp] theorem setFb_sp (s : State) (f : Framebuffer) : (s.setFb f).sp = s.sp := rfl
@[simp] theorem setFb_dt (s : State) (f : Framebuffer) : (s.setFb f).dt = s.dt := rfl
@[simp] theorem setFb_st (s : State) (f : Framebuffer) : (s.setFb f).st = s.st := rfl
@[simp] theorem setFb_status (s : State) (f : Framebuffer) : (s.setFb f).status = s.status := rfl
@[simp] theorem setFb_keys (s : State) (f : Framebuffer) : (s.setFb f).keys = s.keys := rfl
@[simp] theorem setFb_mem (s : State) (f : Framebuffer) : (s.setFb f).mem = s.mem := rfl
@[simp] theorem setFb_locked (s : State) (f : Framebuffer) : (s.setFb f).locked = s.locked := rfl
@[simp] theorem setFb_fb (s : State) (f : Framebuffer) : (s.setFb f).fb = f := rfl
@[simp] theorem setFb_fault (s : State) (f : Framebuffer) : (s.setFb f).fault = s.fault := rfl
@[simp] theorem setFb_cpuPresent (s : State) (f : Framebuffer) : (s.setFb f).cpuPresent = s.cpuPresent := rfl
@[simp] theorem setFb_bootWritable (s : State) (f : Framebuffer) : (s.setFb f).bootWritable = s.bootWritable := rfl
@[simp] theorem setFb_draws (s : State) (f : Framebuffer) : (s.setFb f).draws = s.draws := rfl

@[simp] theorem raise_v (s : State) (c : Fault) : (s.raise c).v = s.v := rfl
@[simp] theorem raise_pc (s : State) (c : Fault) : (s.raise c).pc = s.pc := rfl
@[simp] theorem raise_i (s : State) (c : Fault) : (s.raise c).i = s.i := rfl
@[simp] theorem raise_stack (s : State) (c : Fault) : (s.raise c).stack = s.stack := rfl
@[simp] theorem raise_sp (s : State) (c : Fault) : (s.raise c).sp = s.sp := rfl
@[simp] theorem raise_dt (s : State) (c : Fault) : (s.raise c).dt = s.dt := rfl
@[simp] theorem raise_st (s : State) (c : Fault) : (s.raise c).st = s.st := rfl
@[simp] theorem raise_status (s : State) (c : Fault) : (s.raise c).status = s.status := rfl
@[simp] theorem raise_keys (s : State) (c : Fault) : (s.raise c).keys = s.keys := rfl
@[simp] theorem raise_mem (s : State) (c : Fault) : (s.raise c).mem = s.mem := rfl
@[simp] theorem raise_locked (s : State) (c : Fault) : (s.raise c).locked = s.locked := rfl
@[simp] theorem raise_fb (s : State) (c : Fault) : (s.raise c).fb = s.fb := rfl
@[simp] theorem raise_fault (s : State) (c : Fault) : (s.raise c).fault = s.fault.or (some c) := rfl
@[simp] theorem raise_cpuPresent (s : State) (c : Fault) : (s.raise c).cpuPresent = s.cpuPresent := rfl
@[simp] theorem raise_bootWritable (s : State) (c : Fault) : (s.raise c).bootWritable = s.bootWritable := rfl
@[simp] theorem raise_draws (s : State) (c : Fault) : (s.raise c).draws = s.draws := rfl

/-- A register reads the last value written to it, and any other register as before. -/
@[simp] theorem reg_setReg (s : State) (r q : Reg) (b : Byte) :
    (s.setReg r b).reg q = if q = r then b else s.reg q := by
  simp only [reg, setReg, Fin.getElem_fin, Vector.getElem_set, Fin.ext_iff, eq_comm]

@[simp] theorem reg_setPc (s : State) (t : Word) (q : Reg) : (s.setPc t).reg q = s.reg q := rfl
@[simp] theorem reg_setI (s : State) (t : Word) (q : Reg) : (s.setI t).reg q = s.reg q := rfl
@[simp] theorem reg_setDt (s : State) (b : Byte) (q : Reg) : (s.setDt b).reg q = s.reg q := rfl
@[simp] theorem reg_setSt (s : State) (b : Byte) (q : Reg) : (s.setSt b).reg q = s.reg q := rfl
@[simp] theorem reg_setStatus (s : State) (q : Status) (k : Reg) : (s.setStatus q).reg k = s.reg k := rfl
@[simp] theorem reg_setKeys (s : State) (m : Word) (q : Reg) : (s.setKeys m).reg q = s.reg q := rfl
@[simp] theorem reg_setMem (s : State) (m : Memory) (q : Reg) : (s.setMem m).reg q = s.reg q := rfl
@[simp] theorem reg_setFb (s : State) (f : Framebuffer) (q : Reg) : (s.setFb f).reg q = s.reg q := rfl
@[simp] theorem reg_raise (s : State) (c : Fault) (q : Reg) : (s.raise c).reg q = s.reg q := rfl
@[simp] theorem cell_setReg (s : State) (r : Reg) (b : Byte) (x : Fin 64) (y : Fin 32) : (s.setReg r b).cell x y = s.cell x y := rfl
@[simp] theorem cell_setPc (s : State) (t : Word) (x : Fin 64) (y : Fin 32) : (s.setPc t).cell x y = s.cell x y := rfl
@[simp] theorem cell_setI (s : State) (t : Word) (x : Fin 64) (y : Fin 32) : (s.setI t).cell x y = s.cell x y := rfl
@[simp] theorem cell_setDt (s : State) (b : Byte) (x : Fin 64) (y : Fin 32) : (s.setDt b).cell x y = s.cell x y := rfl
@[simp] theorem cell_setSt (s : State) (b : Byte) (x : Fin 64) (y : Fin 32) : (s.setSt b).cell x y = s.cell x y := rfl
@[simp] theorem cell_setStatus (s : State) (q : Status) (x : Fin 64) (y : Fin 32) : (s.setStatus q).cell x y = s.cell x y := rfl
@[simp] theorem cell_setKeys (s : State) (m : Word) (x : Fin 64) (y : Fin 32) : (s.setKeys m).cell x y = s.cell x y := rfl
@[simp] theorem cell_setMem (s : State) (m : Memory) (x : Fin 64) (y : Fin 32) : (s.setMem m).cell x y = s.cell x y := rfl
@[simp] theorem cell_raise (s : State) (c : Fault) (x : Fin 64) (y : Fin 32) : (s.raise c).cell x y = s.cell x y := rfl
@[simp] theorem ea_setReg (s : State) (r : Reg) (b : Byte) (k : Nat) : (s.setReg r b).ea k = s.ea k := rfl
@[simp] theorem ea_setPc (s : State) (t : Word) (k : Nat) : (s.setPc t).ea k = s.ea k := rfl
@[simp] theorem ea_setDt (s : State) (b : Byte) (k : Nat) : (s.setDt b).ea k = s.ea k := rfl
@[simp] theorem ea_setSt (s : State) (b : Byte) (k : Nat) : (s.setSt b).ea k = s.ea k := rfl
@[simp] theorem ea_setStatus (s : State) (q : Status) (k : Nat) : (s.setStatus q).ea k = s.ea k := rfl
@[simp] theorem ea_setKeys (s : State) (m : Word) (k : Nat) : (s.setKeys m).ea k = s.ea k := rfl
@[simp] theorem ea_setMem (s : State) (m : Memory) (k : Nat) : (s.setMem m).ea k = s.ea k := rfl
@[simp] theorem ea_setFb (s : State) (f : Framebuffer) (k : Nat) : (s.setFb f).ea k = s.ea k := rfl
@[simp] theorem ea_raise (s : State) (c : Fault) (k : Nat) : (s.raise c).ea k = s.ea k := rfl
@[simp] theorem writable_setReg (s : State) (r : Reg) (b : Byte) (a : Nat) : (s.setReg r b).writable a = s.writable a := rfl
@[simp] theorem writable_setPc (s : State) (t : Word) (a : Nat) : (s.setPc t).writable a = s.writable a := rfl
@[simp] theorem writable_setI (s : State) (t : Word) (a : Nat) : (s.setI t).writable a = s.writable a := rfl
@[simp] theorem writable_setDt (s : State) (b : Byte) (a : Nat) : (s.setDt b).writable a = s.writable a := rfl
@[simp] theorem writable_setSt (s : State) (b : Byte) (a : Nat) : (s.setSt b).writable a = s.writable a := rfl
@[simp] theorem writable_setStatus (s : State) (q : Status) (a : Nat) : (s.setStatus q).writable a = s.writable a := rfl
@[simp] theorem writable_setKeys (s : State) (m : Word) (a : Nat) : (s.setKeys m).writable a = s.writable a := rfl
@[simp] theorem writable_setMem (s : State) (m : Memory) (a : Nat) : (s.setMem m).writable a = s.writable a := rfl
@[simp] theorem writable_setFb (s : State) (f : Framebuffer) (a : Nat) : (s.setFb f).writable a = s.writable a := rfl
@[simp] theorem writable_raise (s : State) (c : Fault) (a : Nat) : (s.raise c).writable a = s.writable a := rfl
@[simp] theorem memRead_setReg (s : State) (r : Reg) (b : Byte) (a : Nat) : (s.setReg r b).memRead a = s.memRead a := rfl
@[simp] theorem memRead_setPc (s : State) (t : Word) (a : Nat) : (s.setPc t).memRead a = s.memRead a := rfl
@[simp] theorem memRead_setI (s : State) (t : Word) (a : Nat) : (s.setI t).memRead a = s.memRead a := rfl
@[simp] theorem memRead_setDt (s : State) (b : Byte) (a : Nat) : (s.setDt b).memRead a = s.memRead a := rfl
@[simp] theorem memRead_setSt (s : State) (b : Byte) (a : Nat) : (s.setSt b).memRead a = s.memRead a := rfl
@[simp] theorem memRead_setStatus (s : State) (q : Status) (a : Nat) : (s.setStatus q).memRead a = s.memRead a := rfl
@[simp] theorem memRead_setKeys (s : State) (m : Word) (a : Nat) : (s.setKeys m).memRead a = s.memRead a := rfl
@[simp] theorem memRead_setFb (s : State) (f : Framebuffer) (a : Nat) : (s.setFb f).memRead a = s.memRead a := rfl
@[simp] theorem memRead_raise (s : State) (c : Fault) (a : Nat) : (s.raise c).memRead a = s.memRead a := rfl

/-- A raise in a state with no fatal condition yet records its cause (R230). -/
theorem raise_fault_of_none (s : State) (c : Fault) (h : s.fault = none) : (s.raise c).fault = some c := by
  simp [h]

end Sys2Proof.Machine.State
end

