-- ==== Sys2Proof/Laws/Memory.lean ====
section
/-! SUPPORT. Memory: every operation keeps the canonical form; a read after a write. -/

namespace Sys2Proof.Machine.Memory

theorem wf_cons {k : Nat} {b : Byte} {rest : Memory} :
    wf ((k, b) :: rest) = true ↔
      k < memSize ∧ b ≠ unlisted k ∧ (∀ c ∈ rest, k < c.1) ∧ wf rest = true := by
  simp [wf, and_assoc]

theorem mem_entry {a : Nat} {b : Byte} {c : Host.Cell} (h : c ∈ entry a b) : c.1 = a := by
  unfold entry at h
  split at h
  · cases h
  · cases List.mem_singleton.mp h; rfl

theorem mem_write {m : Memory} {a : Nat} {b : Byte} {c : Host.Cell} (h : c ∈ m.write a b) :
    c.1 = a ∨ c ∈ m := by
  induction m with
  | nil => exact .inl (mem_entry h)
  | cons e rest ih =>
    obtain ⟨k, d⟩ := e
    simp only [write] at h
    split at h
    · rcases List.mem_append.mp h with h | h
      · exact .inl (mem_entry h)
      · exact .inr h
    · split at h
      · rcases List.mem_append.mp h with h | h
        · exact .inl (mem_entry h)
        · exact .inr (List.mem_cons_of_mem _ h)
      · rcases List.mem_cons.mp h with h | h
        · exact .inr (h ▸ List.mem_cons_self)
        · exact (ih h).imp_right (List.mem_cons_of_mem _)

/-- One entry in front of a canonical memory all of whose addresses lie above it. -/
theorem wf_entry_append {a : Nat} {b : Byte} {m : Memory} (ha : a < memSize) (hm : m.wf = true)
    (hlt : ∀ c ∈ m, a < c.1) : wf (entry a b ++ m) = true := by
  unfold entry
  split
  · simpa using hm
  · exact wf_cons.mpr ⟨ha, ‹_›, hlt, hm⟩

/-- A write inside the address space keeps the canonical form. -/
theorem wf_write {m : Memory} {a : Nat} (b : Byte) (ha : a < memSize) (hm : m.wf = true) :
    (m.write a b).wf = true := by
  induction m with
  | nil => simpa [write] using wf_entry_append (b := b) ha hm (by simp)
  | cons e rest ih =>
    obtain ⟨k, d⟩ := e
    obtain ⟨hk, hd, hlt, hr⟩ := wf_cons.mp hm
    simp only [write]
    split
    · refine wf_entry_append ha hm fun c hc => ?_
      rcases List.mem_cons.mp hc with rfl | hc
      · assumption
      · have := hlt c hc; omega
    · split
      · exact wf_entry_append ha hr fun c hc => by have := hlt c hc; omega
      · refine wf_cons.mpr ⟨hk, hd, fun c hc => ?_, ih hr⟩
        rcases mem_write hc with h | h
        · omega
        · exact hlt c h

/-- An address below every listed one reads as unlisted. -/
theorem read_below {m : Memory} {a : Nat} (h : ∀ c ∈ m, a < c.1) : m.read a = unlisted a := by
  cases m with
  | nil => rfl
  | cons e rest =>
    obtain ⟨k, d⟩ := e
    have := h (k, d) List.mem_cons_self
    simp only [read]
    rw [if_pos this]

theorem read_entry_append {a c : Nat} {b : Byte} {m : Memory} (hlt : ∀ e ∈ m, a < e.1) :
    read (entry a b ++ m) c = if c = a then b else read m c := by
  unfold entry
  split
  · rename_i hb
    split
    · rename_i hc; subst hc; simpa [hb] using read_below hlt
    · rfl
  · simp only [List.cons_append, List.nil_append, read]
    split
    · rename_i hc
      rw [if_neg (by omega), read_below fun e he => by have := hlt e he; omega]
    · rfl

/-- A read after a write: the byte written at its address, and every other address as before. -/
theorem read_write {m : Memory} (a c : Nat) (b : Byte) (hm : m.wf = true) :
    (m.write a b).read c = if c = a then b else m.read c := by
  induction m with
  | nil => simpa [write] using read_entry_append (m := []) (a := a) (b := b) (c := c) (by simp)
  | cons e rest ih =>
    obtain ⟨k, d⟩ := e
    obtain ⟨-, -, hlt, hr⟩ := wf_cons.mp hm
    simp only [write]
    split
    · refine read_entry_append fun e he => ?_
      rcases List.mem_cons.mp he with rfl | he
      · assumption
      · have := hlt e he; omega
    · split
      · rename_i hk; subst hk
        rw [read_entry_append hlt]
        simp only [read]
        split
        · rfl
        · split
          · exact read_below fun e he => by have := hlt e he; omega
          · rfl
      · simp only [read, ih hr]
        split
        · rw [if_neg (by omega)]
        · split
          · rw [if_neg (by omega)]
          · rfl

/-- A run of writes inside the address space keeps the canonical form. -/
theorem wf_poke {m : Memory} {a : Nat} {bytes : List Byte} (h : a + bytes.length ≤ memSize)
    (hm : m.wf = true) : (m.poke a bytes).wf = true := by
  induction bytes generalizing m a with
  | nil => exact hm
  | cons b rest ih =>
    simp only [List.length_cons] at h
    exact ih (by omega) (wf_write b (by omega) hm)

/-- A read after a run of writes. -/
theorem read_poke {m : Memory} {a : Nat} {bytes : List Byte} (c : Nat)
    (h : a + bytes.length ≤ memSize) (hm : m.wf = true) :
    (m.poke a bytes).read c =
      if a ≤ c ∧ c < a + bytes.length then bytes.getD (c - a) 0 else m.read c := by
  induction bytes generalizing m a with
  | nil => simp [poke]
  | cons b rest ih =>
    simp only [List.length_cons] at h ⊢
    rw [poke, ih (by omega) (wf_write b (by omega) hm), read_write _ _ _ hm]
    by_cases hc : c = a
    · subst hc; simp
    · by_cases hi : a + 1 ≤ c ∧ c < a + 1 + rest.length
      · rw [if_pos hi, if_pos (by omega), show c - a = c - (a + 1) + 1 by omega]; rfl
      · rw [if_neg hi, if_neg hc, if_neg (by omega)]

/-- Memory at reset is canonical. -/
theorem wf_reset : State.reset.mem.wf = true := rfl

end Sys2Proof.Machine.Memory
end

