-- ==== Sys2Proof/Laws/Ops.lean ====
section
/-! SUPPORT. What each shared operation can do, said once: accesses, stack, framebuffer, and the loops
over them. -/

namespace Sys2Proof.Machine

/-! ## Loops (R13) -/

/-- A loop none of whose rounds raises: what its rounds keep holds at its end. -/
theorem forUpTo_go {body : Nat → State → Flow} (P : Nat → State → Prop) {n : Nat} {s : State} (h0 : P 0 s)
    (hb : ∀ k u, k < n → P k u → ∃ w, body k u = .go w ∧ P (k + 1) w) :
    ∃ t, forUpTo body n s = .go t ∧ P n t := by
  induction n with
  | zero => exact ⟨s, rfl, h0⟩
  | succ n ih =>
    obtain ⟨u, hu, hP⟩ := ih fun k u hk => hb k u (by omega)
    obtain ⟨w, hw, hP'⟩ := hb n u (by omega) hP
    exact ⟨w, by simp [forUpTo, hu, Flow.andThen, hw], hP'⟩

/-- A loop whose round `m` raises, and no earlier round: it ends in the state of that raise. -/
theorem forUpTo_halted {body : Nat → State → Flow} (P : Nat → State → Prop) (Q : State → Prop) {n m : Nat}
    {s : State} (hm : m < n) (h0 : P 0 s)
    (hb : ∀ k u, k < m → P k u → ∃ w, body k u = .go w ∧ P (k + 1) w)
    (hr : ∀ u, P m u → ∃ w, body m u = .halted w ∧ Q w) :
    ∃ t, forUpTo body n s = .halted t ∧ Q t := by
  induction n with
  | zero => omega
  | succ n ih =>
    rcases Nat.lt_succ_iff_lt_or_eq.mp hm with h | rfl
    · obtain ⟨t, ht, hQ⟩ := ih h
      exact ⟨t, by simp [forUpTo, ht, Flow.andThen], hQ⟩
    · obtain ⟨u, hu, hP⟩ := forUpTo_go P h0 hb
      obtain ⟨w, hw, hQ⟩ := hr u hP
      exact ⟨w, by simp [forUpTo, hu, Flow.andThen, hw], hQ⟩

/-- What every round of a loop keeps, raising or not, holds of the state the loop leaves. -/
theorem forUpTo_final {body : Nat → State → Flow} (P : State → Prop) {n : Nat} {s : State} (h0 : P s)
    (hb : ∀ k u, k < n → P u → P (body k u).final) : P (forUpTo body n s).final := by
  induction n with
  | zero => exact h0
  | succ n ih =>
    have h := ih fun k u hk => hb k u (by omega)
    simp only [forUpTo]
    cases hf : forUpTo body n s with
    | go u => rw [hf] at h; exact hb n u (by omega) h
    | halted u => rw [hf] at h; exact h

/-! ## Memory accesses (R66, R67, R70, R71) -/

theorem memRead_ok {s : State} {a : Nat} (h : a < 4096) : s.memRead a = .ok (s.mem.read a) := by
  rw [State.memRead, if_neg (by omega)]

theorem memRead_error {s : State} {a : Nat} (h : 4096 ≤ a) : s.memRead a = .error (.addressOutOfRange a) := by
  rw [State.memRead, if_pos h]

theorem memReadWord_ok {s : State} {a : Nat} (h : a + 1 < 4096) :
    s.memReadWord a = .ok (wordOfBytes (s.mem.read a) (s.mem.read (a + 1))) := by
  simp [State.memReadWord, memRead_ok h, memRead_ok (show a < 4096 by omega)]

theorem memReadWord_error {s : State} {a : Nat} (h : 4096 ≤ a + 1) :
    s.memReadWord a = .error (.addressOutOfRange (max a 4096)) := by
  rcases Nat.lt_or_ge a 4096 with h' | h'
  · obtain rfl : a = 4095 := by omega
    rw [State.memReadWord, memRead_ok h', memRead_error h]; rfl
  · simp [State.memReadWord, memRead_error h', Nat.max_eq_left h']

/-- A write inside the address space: it goes on, and memory alone may have changed. -/
theorem memWrite_go {s : State} {a : Nat} (b : Byte) (h : a < 4096) :
    s.memWrite a b = .go (s.setMem (if s.writable a then s.mem.write a b else s.mem)) := by
  unfold State.memWrite
  rw [if_neg (by omega)]
  split <;> rfl

theorem memWrite_halted {s : State} {a : Nat} (b : Byte) (h : 4096 ≤ a) :
    s.memWrite a b = .halted (s.raise (.addressOutOfRange a)) := by
  rw [State.memWrite, if_pos h]

/-- The bytes after a write that goes on: the written byte where it takes effect, others as before. -/
theorem read_memWrite {m : Memory} {p : Bool} {a : Nat} (b : Byte) (c : Nat) (hm : m.wf = true) :
    Memory.read (if p then m.write a b else m) c = if c = a ∧ p = true then b else m.read c := by
  cases p
  · simp
  · simp [Memory.read_write _ _ _ hm]

theorem wf_memWrite {m : Memory} {p : Bool} {a : Nat} (b : Byte) (ha : a < 4096) (hm : m.wf = true) :
    Memory.wf (if p then m.write a b else m) = true := by
  split
  · exact Memory.wf_write b ha hm
  · exact hm

/-- Every byte write, raising or not, keeps the canonical form. -/
theorem memWrite_wf {s : State} {a : Nat} (b : Byte) (hm : s.mem.wf = true) :
    (s.memWrite a b).final.mem.wf = true := by
  rcases Nat.lt_or_ge a 4096 with h | h
  · rw [memWrite_go b h]; exact wf_memWrite b h hm
  · rw [memWrite_halted b h]; exact hm

/-- A byte write, raising or not, changes memory and the fault record alone. -/
theorem memWrite_frame {s : State} {a : Nat} (b : Byte) :
    (s.memWrite a b).final = { s with mem := (s.memWrite a b).final.mem, fault := (s.memWrite a b).final.fault } := by
  rcases Nat.lt_or_ge a 4096 with h | h
  · rw [memWrite_go b h]; rfl
  · rw [memWrite_halted b h]; rfl

/-- A byte write changes the byte at its address at most, and only where the lock lets it. -/
theorem memWrite_bytes {s : State} {a c : Nat} (b : Byte) (hm : s.mem.wf = true)
    (h : c ≠ a ∨ s.writable c = false) : (s.memWrite a b).final.mem.read c = s.mem.read c := by
  rcases Nat.lt_or_ge a 4096 with ha | ha
  · rw [memWrite_go b ha]
    refine (read_memWrite b c hm).trans (if_neg ?_)
    rintro ⟨rfl, hw⟩
    rcases h with h | h
    · exact h rfl
    · rw [h] at hw; cases hw
  · rw [memWrite_halted b ha]; rfl

/-! ## Call stack (R28, R29) -/

theorem push_go {s : State} (w : Word) (h : s.sp.val < 16) :
    s.push w = .go { s with stack := s.stack.set s.sp.val w h, sp := ⟨s.sp.val + 1, by omega⟩ } := by
  rw [State.push, dif_pos h]

theorem push_halted {s : State} (w : Word) (h : ¬ s.sp.val < 16) :
    s.push w = .halted (s.raise (.stackOverflow s.pc)) := by
  rw [State.push, dif_neg h]

theorem popToPc_go {s : State} (h : 0 < s.sp.val) :
    s.popToPc = .go { s with
      pc := s.stack[s.sp.val - 1]'(by omega)
      stack := s.stack.set (s.sp.val - 1) 0x0000#16 (by omega)
      sp := ⟨s.sp.val - 1, by omega⟩ } := by
  rw [State.popToPc, dif_pos h]

theorem popToPc_halted {s : State} (h : ¬ 0 < s.sp.val) :
    s.popToPc = .halted (s.raise (.stackUnderflow s.pc)) := by
  rw [State.popToPc, dif_neg h]

/-! ## Framebuffer (R35, R77) -/

/-- Two cells have one number only if they are one cell. -/
theorem fbIndex_inj {x x' : Fin 64} {y y' : Fin 32} :
    fbIndex x.val y.val = fbIndex x'.val y'.val ↔ x = x' ∧ y = y' := by
  unfold fbIndex
  constructor
  · intro h
    exact ⟨Fin.ext (by omega), Fin.ext (by omega)⟩
  · rintro ⟨rfl, rfl⟩; rfl

/-- The drawn cell is toggled by a set bit, and no other cell changes. -/
theorem cell_fbDraw (s : State) (x cx : Fin 64) (y cy : Fin 32) (bit : Bool) :
    (s.fbDraw x y bit).2.cell cx cy = (s.cell cx cy ^^ (bit && decide (cx = x ∧ cy = y))) := by
  have hlt : fbIndex cx.val cy.val < 2048 := by unfold fbIndex; omega
  cases bit
  · simp [State.fbDraw, State.cell]
  · simp [State.fbDraw, State.cell, hlt, fbIndex_inj]

theorem fbDraw_frame (s : State) (x : Fin 64) (y : Fin 32) (bit : Bool) :
    (s.fbDraw x y bit).2 = s.setFb (s.fbDraw x y bit).2.fb := rfl

end Sys2Proof.Machine
end

