-- ==== Sys2Proof/Laws/Step.lean ====
section
/-! SUPPORT. What one cycle can do, said once. -/

namespace Sys2Proof.Machine

/-- A cycle of a constructed, running machine without a fatal condition fetches and executes. -/
theorem step_running {s : State} (hf : s.fault = none) (hc : s.cpuPresent = true)
    (hr : s.status = .running) : step s = fetchAndExecute s := by
  simp only [step, cycle, hf, hc, hr, if_true]

/-- What a cycle that answers a next state has done: nothing (a guard, R132, R133), or a fatal fetch, or a
fatal decode, or the meaning of the fetched instruction on the advanced `pc` (R130, R134). -/
theorem step_cases {s t : State} (h : step s = .next t) :
    t = s ∨ s.fault = none ∧ s.cpuPresent = true ∧ s.status = .running ∧
      ((∃ c, s.memReadWord s.pc.toNat = .error c ∧ t = s.raise c) ∨
       (∃ op, s.memReadWord s.pc.toNat = .ok op ∧ decodeOp op = none ∧
          t = (s.setPc (s.pc + 2#16)).raise (.decodeFailure op)) ∨
       (∃ op i, s.memReadWord s.pc.toNat = .ok op ∧ decodeOp op = some i ∧
          exec i (s.setPc (s.pc + 2#16)) = .next t)) := by
  unfold step cycle at h
  cases hf : s.fault with
  | some c => simp only [hf, Host.Outcome.next.injEq] at h; exact .inl h.symm
  | none =>
    simp only [hf] at h
    cases hc : s.cpuPresent with
    | false => simp [hc] at h
    | true =>
      simp only [hc, if_true] at h
      cases hr : s.status with
      | waitingKeypress r => simp only [hr, Host.Outcome.next.injEq] at h; exact .inl h.symm
      | running =>
        simp only [hr, fetchAndExecute] at h
        refine .inr ⟨rfl, rfl, rfl, ?_⟩
        cases hw : s.memReadWord s.pc.toNat with
        | error c => simp only [hw, Host.Outcome.next.injEq] at h; exact .inl ⟨c, rfl, h.symm⟩
        | ok op =>
          simp only [hw] at h
          cases hd : decodeOp op with
          | none => simp only [hd, Host.Outcome.next.injEq] at h; exact .inr (.inl ⟨op, rfl, hd, h.symm⟩)
          | some i => simp only [hd] at h; exact .inr (.inr ⟨op, i, rfl, hd, h⟩)

/-- A fetch that answers a word has both its bytes in the address space (R70). -/
theorem memReadWord_ok_lt {s : State} {a : Nat} {w : Word} (h : s.memReadWord a = .ok w) : a + 1 < 4096 := by
  by_contra hn
  rw [memReadWord_error (by omega)] at h
  cases h

end Sys2Proof.Machine
end

