-- ==== Sys2Proof/Laws/Exec.lean ====
section
/-! SUPPORT. What the meanings built on raising operations answer, case by case. -/

namespace Sys2Proof.Machine

theorem execCall_next {s : State} (nnn : Addr) (h : s.sp.val < 16) :
    exec (.call nnn) s = .next ({ s with
      stack := s.stack.set s.sp.val s.pc h, sp := ⟨s.sp.val + 1, by omega⟩ }.setPc (zextAddr nnn)) := by
  simp only [exec, execCall, push_go _ h, Flow.andThen, Flow.final]

theorem execCall_full {s : State} (nnn : Addr) (h : ¬ s.sp.val < 16) :
    exec (.call nnn) s = .next (s.raise (.stackOverflow s.pc)) := by
  simp only [exec, execCall, push_halted _ h, Flow.andThen, Flow.final]

theorem execRet_next {s : State} (h : 0 < s.sp.val) :
    exec .ret s = .next { s with
      pc := s.stack[s.sp.val - 1]'(by omega)
      stack := s.stack.set (s.sp.val - 1) 0x0000#16 (by omega)
      sp := ⟨s.sp.val - 1, by omega⟩ } := by
  simp only [exec, execRet, popToPc_go h, Flow.final]

theorem execRet_empty {s : State} (h : ¬ 0 < s.sp.val) :
    exec .ret s = .next (s.raise (.stackUnderflow s.pc)) := by
  simp only [exec, execRet, popToPc_halted h, Flow.final]

theorem skipOnKey_ok {s : State} {x : Reg} {down : Bool} (h : (s.reg x).toNat ≤ 15) :
    s.skipOnKey x down = s.skipIf (s.keyDown (s.reg x).toNat == down) := by
  rw [State.skipOnKey, if_neg (by omega)]

theorem skipOnKey_raise {s : State} {x : Reg} {down : Bool} (h : 15 < (s.reg x).toNat) :
    s.skipOnKey x down = s.raise (.keyIndexOutOfRange (s.reg x)) := by
  rw [State.skipOnKey, if_pos h]

/-- A skip changes `pc` alone, by a further 2 or not at all (R150). -/
theorem skipIf_eq (s : State) (p : Bool) : s.skipIf p = s.setPc (if p then s.pc + 2#16 else s.pc) := by
  cases p <;> rfl

theorem zextAddr_toNat (n : Addr) : (zextAddr n).toNat = n.toNat := by
  simp [zextAddr]; omega

theorem zextByte_toNat (n : Byte) : (zextByte n).toNat = n.toNat := by
  simp [zextByte]; omega

/-- The effective address without its name (R167). -/
theorem ea_eq (s : State) (k : Nat) : s.ea k = s.i.toNat + k := rfl

/-- Register number `k` of a loop is register `k` (R165, R166). -/
theorem regNo_val {k : Nat} (h : k < 16) : (regNo k).val = k := by
  simp [regNo, Nat.mod_eq_of_lt h]

theorem regNo_self (r : Reg) : regNo r.val = r := Fin.ext (regNo_val r.isLt)

/-! ## Loops over memory accesses (R164, R165, R166) -/

/-- A loop of byte writes changes memory and the fault record alone. -/
theorem storeLoop_frame {body : Nat → State → Flow} {n : Nat} {s : State}
    (hb : ∀ k u, ∃ a b, body k u = u.memWrite a b) :
    (forUpTo body n s).final =
      { s with mem := (forUpTo body n s).final.mem, fault := (forUpTo body n s).final.fault } :=
  forUpTo_final (P := fun t => t = { s with mem := t.mem, fault := t.fault }) rfl fun k w _ hw => by
    obtain ⟨a, b, h⟩ := hb k w
    rw [h, memWrite_frame, hw]

/-- A loop of byte writes keeps the canonical form. -/
theorem storeLoop_wf {body : Nat → State → Flow} {n : Nat} {s : State}
    (hb : ∀ k u, ∃ a b, body k u = u.memWrite a b) (hm : s.mem.wf = true) :
    (forUpTo body n s).final.mem.wf = true :=
  forUpTo_final (P := fun t => t.mem.wf = true) hm fun k w _ hw => by
    obtain ⟨a, b, h⟩ := hb k w
    rw [h]; exact memWrite_wf b hw

/-- A loop of byte writes leaves every byte that the lock protects. -/
theorem storeLoop_locked {body : Nat → State → Flow} {n : Nat} {s : State}
    (hb : ∀ k u, ∃ a b, body k u = u.memWrite a b) (hm : s.mem.wf = true) {c : Nat}
    (hc : s.writable c = false) : (forUpTo body n s).final.mem.read c = s.mem.read c :=
  (forUpTo_final (P := fun t => t.mem.wf = true ∧ t.writable c = false ∧ t.mem.read c = s.mem.read c)
    ⟨hm, hc, rfl⟩ fun k w _ hw => by
      obtain ⟨a, b, h⟩ := hb k w
      rw [h]
      refine ⟨memWrite_wf b hw.1, ?_, ?_⟩
      · rw [memWrite_frame]; exact hw.2.1
      · rw [memWrite_bytes b hw.1 (.inr hw.2.1)]; exact hw.2.2).2.2

/-- A loop that stores `f k` at `I + k` for `k` below `n`, all in the address space: it goes on, memory
alone may have changed, and exactly the writable bytes of the block hold `f`. -/
theorem storeLoop_go {f : Nat → Byte} {body : Nat → State → Flow} {s : State} {n : Nat} (hm : s.mem.wf = true)
    (hb : ∀ k u, k < n → u = s.setMem u.mem → body k u = u.memWrite (u.ea k) (f k))
    (hlt : ∀ k, k < n → s.ea k < 4096) :
    ∃ t, forUpTo body n s = .go t ∧ t = s.setMem t.mem ∧ t.mem.wf = true ∧
      ∀ a, t.mem.read a =
        if s.i.toNat ≤ a ∧ a < s.i.toNat + n ∧ s.writable a = true then f (a - s.i.toNat)
        else s.mem.read a := by
  refine forUpTo_go (fun m t => t = s.setMem t.mem ∧ t.mem.wf = true ∧ ∀ a, t.mem.read a =
      if s.i.toNat ≤ a ∧ a < s.i.toNat + m ∧ s.writable a = true then f (a - s.i.toNat)
      else s.mem.read a) ⟨rfl, hm, fun a => by simp; omega⟩ ?_
  rintro k u hk ⟨hu, hw, hr⟩
  have he : u.ea k = s.ea k := by rw [hu]; rfl
  have hlt' : u.ea k < 4096 := he ▸ hlt k hk
  have hwr : ∀ a, u.writable a = s.writable a := fun a => by rw [hu]; rfl
  refine ⟨_, by rw [hb k u hk hu, memWrite_go _ hlt'], by rw [hu]; rfl, wf_memWrite _ hlt' hw, fun a => ?_⟩
  simp only [State.setMem_mem, read_memWrite _ _ hw, hr a, he, hwr]
  rcases eq_or_ne a (s.ea k) with rfl | h1
  · cases s.writable (s.ea k) <;> simp [State.ea]
  · have h2 : (s.i.toNat ≤ a ∧ a < s.i.toNat + (k + 1) ∧ s.writable a = true) ↔
        (s.i.toNat ≤ a ∧ a < s.i.toNat + k ∧ s.writable a = true) := by
      rw [ea_eq] at h1
      constructor <;> (rintro ⟨_, _, h⟩; exact ⟨by omega, by omega, h⟩)
    simp only [h1, h2, false_and, if_false]

/-- A loop of register loads changes general registers and the fault record alone. -/
theorem loadLoop_frame (n : Nat) (s : State) :
    (forUpTo loadReg n s).final =
      { s with v := (forUpTo loadReg n s).final.v, fault := (forUpTo loadReg n s).final.fault } :=
  forUpTo_final (P := fun t => t = { s with v := t.v, fault := t.fault }) rfl fun k w _ hw => by
    unfold loadReg
    split <;> (rw [hw]; rfl)

/-! ## DRW (R201) -/

/-- One bit of a sprite never raises, and changes general registers and the framebuffer alone. -/
theorem drawPixel_go (vx vy b : Byte) (row col : Nat) (u : State) :
    ∃ w, drawPixel vx vy b row col u = .go w ∧ w = { u with v := w.v, fb := w.fb } := by
  unfold drawPixel
  split
  · refine ⟨_, rfl, ?_⟩
    simp only
    split <;> rfl
  · exact ⟨u, rfl, rfl⟩

/-- One row of a sprite changes general registers, the framebuffer and the fault record alone. -/
theorem drawRow_frame (vx vy : Byte) (row : Nat) (u : State) :
    (drawRow vx vy row u).final =
      { u with
        v := (drawRow vx vy row u).final.v
        fb := (drawRow vx vy row u).final.fb
        fault := (drawRow vx vy row u).final.fault } := by
  unfold drawRow
  split
  · rfl
  · refine forUpTo_final (P := fun t => t = { u with v := t.v, fb := t.fb, fault := t.fault }) rfl
      fun k w _ hw => ?_
    obtain ⟨w', hw', hf⟩ := drawPixel_go vx vy _ row k w
    rw [hw', Flow.final, hf, hw]

/-- DRW changes general registers, the framebuffer and the fault record alone. -/
theorem execDrw_frame (x y : Reg) (n : Height) (s : State) :
    ∃ t, exec (.drw x y n) s = .next t ∧ t = { s with v := t.v, fb := t.fb, fault := t.fault } :=
  ⟨_, rfl, forUpTo_final (P := fun t => t = { s with v := t.v, fb := t.fb, fault := t.fault }) rfl
    fun k w _ hw => by rw [drawRow_frame, hw]⟩

/-! ## All instructions -/

/-- The four kinds of effect. An instruction keeps `pc` and the stack and the canonical form of memory; or
writes `pc` alone, by a skip or a jump; or pushes and jumps (CALL); or pops (RET). -/
theorem exec_cases {i : Instr} {s t : State} (h : exec i s = .next t) :
    (t = { s with v := t.v, draws := t.draws, fb := t.fb, i := t.i, dt := t.dt, st := t.st,
                  status := t.status, mem := t.mem, fault := t.fault } ∧
      (s.mem.wf = true → t.mem.wf = true)) ∨
    (t = { s with pc := t.pc } ∧ (t.pc = s.pc ∨ t.pc = s.pc + 2#16 ∨ t.pc.toNat ≤ 0x10FE)) ∨
    (∃ h : s.sp.val < 16, ∃ nnn, t = ({ s with
      stack := s.stack.set s.sp.val s.pc h, sp := ⟨s.sp.val + 1, by omega⟩ }.setPc (zextAddr nnn))) ∨
    (∃ h : 0 < s.sp.val, t = { s with
      pc := s.stack[s.sp.val - 1]'(by omega)
      stack := s.stack.set (s.sp.val - 1) 0x0000#16 (by omega)
      sp := ⟨s.sp.val - 1, by omega⟩ }) := by
  have skip : ∀ p, exec i s = .next (s.skipIf p) →
      t = { s with pc := t.pc } ∧ (t.pc = s.pc ∨ t.pc = s.pc + 2#16 ∨ t.pc.toNat ≤ 0x10FE) := by
    intro p hp
    rw [hp, skipIf_eq] at h
    cases h
    exact ⟨rfl, by cases p <;> simp⟩
  cases i with
  | call nnn =>
    by_cases hs : s.sp.val < 16
    · rw [execCall_next nnn hs] at h; cases h; exact .inr (.inr (.inl ⟨hs, nnn, rfl⟩))
    · rw [execCall_full nnn hs] at h; cases h; exact .inl ⟨rfl, id⟩
  | ret =>
    by_cases hs : 0 < s.sp.val
    · rw [execRet_next hs] at h; cases h; exact .inr (.inr (.inr ⟨hs, rfl⟩))
    · rw [execRet_empty hs] at h; cases h; exact .inl ⟨rfl, id⟩
  | jp nnn => cases h; exact .inr (.inl ⟨rfl, .inr (.inr (by simp [zextAddr_toNat]; omega))⟩)
  | jpV0 nnn =>
    cases h
    refine .inr (.inl ⟨rfl, .inr (.inr ?_)⟩)
    simp only [State.setPc_pc, addWord, zextByte_toNat, zextAddr_toNat, BitVec.toNat_ofNat]
    omega
  | seImm x kk => exact .inr (.inl (skip _ rfl))
  | sneImm x kk => exact .inr (.inl (skip _ rfl))
  | seReg x y => exact .inr (.inl (skip _ rfl))
  | sneReg x y => exact .inr (.inl (skip _ rfl))
  | skp x =>
    rcases Nat.lt_or_ge 15 (s.reg x).toNat with hx | hx
    · cases h; rw [skipOnKey_raise hx]; exact .inl ⟨rfl, id⟩
    · exact .inr (.inl (skip _ (congrArg _ (skipOnKey_ok hx))))
  | sknp x =>
    rcases Nat.lt_or_ge 15 (s.reg x).toNat with hx | hx
    · cases h; rw [skipOnKey_raise hx]; exact .inl ⟨rfl, id⟩
    · exact .inr (.inl (skip _ (congrArg _ (skipOnKey_ok hx))))
  | drw x y n =>
    obtain ⟨t', ht', hf⟩ := execDrw_frame x y n s
    rw [ht'] at h; cases h
    exact .inl ⟨by rw [hf], by rw [hf]; exact id⟩
  | ldBVx x =>
    cases h
    exact .inl ⟨by rw [storeLoop_frame (body := storeDigit (s.reg x)) fun k u => ⟨_, _, rfl⟩],
      storeLoop_wf fun k u => ⟨_, _, rfl⟩⟩
  | storeRegs x =>
    cases h
    exact .inl ⟨by rw [storeLoop_frame (body := storeReg) fun k u => ⟨_, _, rfl⟩],
      storeLoop_wf fun k u => ⟨_, _, rfl⟩⟩
  | loadRegs x => cases h; rw [loadLoop_frame]; exact .inl ⟨rfl, id⟩
  | _ => cases h; exact .inl ⟨rfl, id⟩

end Sys2Proof.Machine
end

