-- ==== Sys2Proof/Laws/External.lean ====
section
/-! SUPPORT. What a host operation can do, said once, and the induction over runs. -/

namespace Sys2Proof.Machine

/-- What a host operation that answers a next state has done: nothing (a read, a key press while running, or the
fault guard R133), or an image load (R75), or the construction of the CPU Engine (R247), or a cycle (R130), or a
write of the keys (R249), the end of a key wait (R250) or a tick (R251). -/
theorem act_cases {m : Move} {s t : State} (h : act m s = .next t) :
    t = s ∨ s.fault = none ∧
      ((∃ bytes : List Byte, m = .loadImage bytes ∧ s.locked = false ∧ s.cpuPresent = false ∧
          (3584 < bytes.length ∧ t = s.raise (.addressOutOfRange 0x1000) ∨
           bytes.length ≤ 3584 ∧ t = { s with mem := s.mem.poke 0x200 bytes, locked := true })) ∨
       (m = .constructCpu ∧ s.cpuPresent = false ∧
          (s.locked = false ∧ t = s.raise .constructUnlocked ∨
           s.locked = true ∧ t = { s with
             v := Vector.replicate 16 0x00#8
             pc := 0x0200#16
             i := 0x0000#16
             stack := Vector.replicate 16 0x0000#16
             sp := 0
             dt := 0x00#8
             st := 0x00#8
             status := .running
             keys := 0x0000#16
             cpuPresent := true })) ∨
       (m = .cycle ∧ step s = .next t) ∨
       (∃ mask, m = .setKeys mask ∧ s.cpuPresent = true ∧ t = s.setKeys mask) ∨
       (∃ k r, m = .keyPress k ∧ s.cpuPresent = true ∧ s.status = .waitingKeypress r ∧
          t = (s.setReg r (BitVec.ofNat 8 k.val)).setStatus .running) ∨
       (m = .tick ∧ s.cpuPresent = true ∧ t = s.tick)) := by
  unfold act at h
  split at h
  · cases h; exact .inl rfl
  rename_i hf
  cases m with
  | loadImage bytes =>
    simp only [State.loadImage] at h
    split at h
    · cases h
    rename_i hg
    simp only [Bool.or_eq_true, not_or, Bool.not_eq_true] at hg
    refine .inr ⟨hf, .inl ⟨bytes, rfl, hg.1, hg.2, ?_⟩⟩
    split at h <;> cases h
    · exact .inl ⟨‹_›, rfl⟩
    · exact .inr ⟨by omega, rfl⟩
  | constructCpu =>
    simp only [State.constructCpu] at h
    split at h
    · cases h
    rename_i hc
    refine .inr ⟨hf, .inr (.inl ⟨rfl, by simpa using hc, ?_⟩)⟩
    split at h <;> rename_i hl <;> cases h
    · exact .inr ⟨hl, rfl⟩
    · exact .inl ⟨by simpa using hl, rfl⟩
  | cycle => exact .inr ⟨hf, .inr (.inr (.inl ⟨rfl, h⟩))⟩
  | setKeys mask =>
    simp only [State.onCpu] at h
    split at h <;> cases h
    exact .inr ⟨hf, .inr (.inr (.inr (.inl ⟨mask, rfl, ‹_›, rfl⟩)))⟩
  | keyPress k =>
    simp only [State.onCpu, State.keyPress] at h
    split at h
    · split at h <;> cases h
      · exact .inr ⟨hf, .inr (.inr (.inr (.inr (.inl ⟨k, _, rfl, ‹_›, ‹_›, rfl⟩))))⟩
      · exact .inl rfl
    · cases h
  | tick =>
    simp only [State.onCpu] at h
    split at h <;> cases h
    exact .inr ⟨hf, .inr (.inr (.inr (.inr (.inr ⟨rfl, ‹_›, rfl⟩))))⟩
  | isLocked => cases h; exact .inl rfl
  | readFramebuffer => cases h; exact .inl rfl
  | readMemory a => cases h; exact .inl rfl
  | readStatus =>
    simp only [State.onCpu] at h
    split at h <;> cases h
    exact .inl rfl
  | readTimers =>
    simp only [State.onCpu] at h
    split at h <;> cases h
    exact .inl rfl

/-- What every host operation keeps, a run of them in any order keeps (R254). -/
theorem run_keeps {P : State → Prop} (hact : ∀ m s t, P s → act m s = .next t → P t) {ms : List Move}
    {s t : State} (h0 : P s) (h : run ms s = .next t) : P t := by
  induction ms generalizing s with
  | nil => cases h; exact h0
  | cons m ms ih =>
    simp only [run] at h
    split at h
    · exact ih (hact _ _ _ h0 ‹_›) h
    · cases h
    · cases h

end Sys2Proof.Machine
end

