-- ==== Sys2Proof/Laws/PerInstr.lean ====
section
/-! SUPPORT. Statements about every instruction as syntax, one lemma per constructor: an instruction's opcode
has the fixed bits of its row in the opcode table. -/

namespace Sys2Proof.Laws

/-- The fixed bits under the mask of a row with one fixed nibble. -/
theorem and_F000 (w : Word) : w &&& 0xF000#16 = opN3 w ++ 0x000#12 := by
  apply BitVec.eq_of_getLsbD_eq
  intro k hk
  simp only [BitVec.getLsbD_and, BitVec.getLsbD_append, BitVec.getLsbD_extractLsb', opN3]
  interval_cases k <;> simp

/-- The fixed bits under the mask of a row of format XY. -/
theorem and_F00F (w : Word) : w &&& 0xF00F#16 = opN3 w ++ 0x00#8 ++ opN0 w := by
  apply BitVec.eq_of_getLsbD_eq
  intro k hk
  simp only [BitVec.getLsbD_and, BitVec.getLsbD_append, BitVec.getLsbD_extractLsb', opN3, opN0]
  interval_cases k <;> simp

/-- The fixed bits under the mask of a row of format X. -/
theorem and_F0FF (w : Word) : w &&& 0xF0FF#16 = opN3 w ++ 0x0#4 ++ opKK w := by
  apply BitVec.eq_of_getLsbD_eq
  intro k hk
  simp only [BitVec.getLsbD_and, BitVec.getLsbD_append, BitVec.getLsbD_extractLsb', opN3, opKK]
  interval_cases k <;> simp

namespace TableRow

/-- The bits that an instruction's row of the opcode table fixes, and their values (R105: `mask` and
`match`). -/
def row : Instr → Word × Word
  | .cls => (0xFFFF#16, 0x00E0#16)
  | .ret => (0xFFFF#16, 0x00EE#16)
  | .sys _ => (0xF000#16, 0x0000#16)
  | .jp _ => (0xF000#16, 0x1000#16)
  | .call _ => (0xF000#16, 0x2000#16)
  | .seImm _ _ => (0xF000#16, 0x3000#16)
  | .sneImm _ _ => (0xF000#16, 0x4000#16)
  | .seReg _ _ => (0xF00F#16, 0x5000#16)
  | .ldImm _ _ => (0xF000#16, 0x6000#16)
  | .addImm _ _ => (0xF000#16, 0x7000#16)
  | .ldReg _ _ => (0xF00F#16, 0x8000#16)
  | .orReg _ _ => (0xF00F#16, 0x8001#16)
  | .andReg _ _ => (0xF00F#16, 0x8002#16)
  | .xorReg _ _ => (0xF00F#16, 0x8003#16)
  | .addReg _ _ => (0xF00F#16, 0x8004#16)
  | .subReg _ _ => (0xF00F#16, 0x8005#16)
  | .shr _ _ => (0xF00F#16, 0x8006#16)
  | .subnReg _ _ => (0xF00F#16, 0x8007#16)
  | .shl _ _ => (0xF00F#16, 0x800E#16)
  | .sneReg _ _ => (0xF00F#16, 0x9000#16)
  | .ldI _ => (0xF000#16, 0xA000#16)
  | .jpV0 _ => (0xF000#16, 0xB000#16)
  | .rnd _ _ => (0xF000#16, 0xC000#16)
  | .drw _ _ _ => (0xF000#16, 0xD000#16)
  | .skp _ => (0xF0FF#16, 0xE09E#16)
  | .sknp _ => (0xF0FF#16, 0xE0A1#16)
  | .ldVxDt _ => (0xF0FF#16, 0xF007#16)
  | .ldVxK _ => (0xF0FF#16, 0xF00A#16)
  | .ldDtVx _ => (0xF0FF#16, 0xF015#16)
  | .ldStVx _ => (0xF0FF#16, 0xF018#16)
  | .addIVx _ => (0xF0FF#16, 0xF01E#16)
  | .ldFVx _ => (0xF0FF#16, 0xF029#16)
  | .ldBVx _ => (0xF0FF#16, 0xF033#16)
  | .storeRegs _ => (0xF0FF#16, 0xF055#16)
  | .loadRegs _ => (0xF0FF#16, 0xF065#16)

/-- The instruction's opcode has the fixed bits of its row (R102, R105). -/
def Statement (i : Instr) : Prop := encodeOp i &&& (row i).1 = (row i).2

theorem cls : Statement .cls := rfl

theorem ret : Statement .ret := rfl

theorem sys (nnn : Addr) : Statement (.sys nnn) :=
  (and_F000 _).trans (by rw [encodeOp, opN3_fmtNNN]; rfl)

theorem jp (nnn : Addr) : Statement (.jp nnn) :=
  (and_F000 _).trans (by rw [encodeOp, opN3_fmtNNN]; rfl)

theorem call (nnn : Addr) : Statement (.call nnn) :=
  (and_F000 _).trans (by rw [encodeOp, opN3_fmtNNN]; rfl)

theorem seImm (x : Reg) (kk : Byte) : Statement (.seImm x kk) :=
  (and_F000 _).trans (by rw [encodeOp, opN3_fmtXKK]; rfl)

theorem sneImm (x : Reg) (kk : Byte) : Statement (.sneImm x kk) :=
  (and_F000 _).trans (by rw [encodeOp, opN3_fmtXKK]; rfl)

theorem seReg (x : Reg) (y : Reg) : Statement (.seReg x y) :=
  (and_F00F _).trans (by rw [encodeOp, opN3_fmtXYN, opN0_fmtXYN]; rfl)

theorem ldImm (x : Reg) (kk : Byte) : Statement (.ldImm x kk) :=
  (and_F000 _).trans (by rw [encodeOp, opN3_fmtXKK]; rfl)

theorem addImm (x : Reg) (kk : Byte) : Statement (.addImm x kk) :=
  (and_F000 _).trans (by rw [encodeOp, opN3_fmtXKK]; rfl)

theorem ldReg (x : Reg) (y : Reg) : Statement (.ldReg x y) :=
  (and_F00F _).trans (by rw [encodeOp, opN3_fmtXYN, opN0_fmtXYN]; rfl)

theorem orReg (x : Reg) (y : Reg) : Statement (.orReg x y) :=
  (and_F00F _).trans (by rw [encodeOp, opN3_fmtXYN, opN0_fmtXYN]; rfl)

theorem andReg (x : Reg) (y : Reg) : Statement (.andReg x y) :=
  (and_F00F _).trans (by rw [encodeOp, opN3_fmtXYN, opN0_fmtXYN]; rfl)

theorem xorReg (x : Reg) (y : Reg) : Statement (.xorReg x y) :=
  (and_F00F _).trans (by rw [encodeOp, opN3_fmtXYN, opN0_fmtXYN]; rfl)

theorem addReg (x : Reg) (y : Reg) : Statement (.addReg x y) :=
  (and_F00F _).trans (by rw [encodeOp, opN3_fmtXYN, opN0_fmtXYN]; rfl)

theorem subReg (x : Reg) (y : Reg) : Statement (.subReg x y) :=
  (and_F00F _).trans (by rw [encodeOp, opN3_fmtXYN, opN0_fmtXYN]; rfl)

theorem shr (x : Reg) (y : Reg) : Statement (.shr x y) :=
  (and_F00F _).trans (by rw [encodeOp, opN3_fmtXYN, opN0_fmtXYN]; rfl)

theorem subnReg (x : Reg) (y : Reg) : Statement (.subnReg x y) :=
  (and_F00F _).trans (by rw [encodeOp, opN3_fmtXYN, opN0_fmtXYN]; rfl)

theorem shl (x : Reg) (y : Reg) : Statement (.shl x y) :=
  (and_F00F _).trans (by rw [encodeOp, opN3_fmtXYN, opN0_fmtXYN]; rfl)

theorem sneReg (x : Reg) (y : Reg) : Statement (.sneReg x y) :=
  (and_F00F _).trans (by rw [encodeOp, opN3_fmtXYN, opN0_fmtXYN]; rfl)

theorem ldI (nnn : Addr) : Statement (.ldI nnn) :=
  (and_F000 _).trans (by rw [encodeOp, opN3_fmtNNN]; rfl)

theorem jpV0 (nnn : Addr) : Statement (.jpV0 nnn) :=
  (and_F000 _).trans (by rw [encodeOp, opN3_fmtNNN]; rfl)

theorem rnd (x : Reg) (kk : Byte) : Statement (.rnd x kk) :=
  (and_F000 _).trans (by rw [encodeOp, opN3_fmtXKK]; rfl)

theorem drw (x : Reg) (y : Reg) (n : Height) : Statement (.drw x y n) :=
  (and_F000 _).trans (by rw [encodeOp, opN3_fmtXYN]; rfl)

theorem skp (x : Reg) : Statement (.skp x) :=
  (and_F0FF _).trans (by rw [encodeOp, opN3_fmtXKK, opKK_fmtXKK]; rfl)

theorem sknp (x : Reg) : Statement (.sknp x) :=
  (and_F0FF _).trans (by rw [encodeOp, opN3_fmtXKK, opKK_fmtXKK]; rfl)

theorem ldVxDt (x : Reg) : Statement (.ldVxDt x) :=
  (and_F0FF _).trans (by rw [encodeOp, opN3_fmtXKK, opKK_fmtXKK]; rfl)

theorem ldVxK (x : Reg) : Statement (.ldVxK x) :=
  (and_F0FF _).trans (by rw [encodeOp, opN3_fmtXKK, opKK_fmtXKK]; rfl)

theorem ldDtVx (x : Reg) : Statement (.ldDtVx x) :=
  (and_F0FF _).trans (by rw [encodeOp, opN3_fmtXKK, opKK_fmtXKK]; rfl)

theorem ldStVx (x : Reg) : Statement (.ldStVx x) :=
  (and_F0FF _).trans (by rw [encodeOp, opN3_fmtXKK, opKK_fmtXKK]; rfl)

theorem addIVx (x : Reg) : Statement (.addIVx x) :=
  (and_F0FF _).trans (by rw [encodeOp, opN3_fmtXKK, opKK_fmtXKK]; rfl)

theorem ldFVx (x : Reg) : Statement (.ldFVx x) :=
  (and_F0FF _).trans (by rw [encodeOp, opN3_fmtXKK, opKK_fmtXKK]; rfl)

theorem ldBVx (x : Reg) : Statement (.ldBVx x) :=
  (and_F0FF _).trans (by rw [encodeOp, opN3_fmtXKK, opKK_fmtXKK]; rfl)

theorem storeRegs (x : Reg) : Statement (.storeRegs x) :=
  (and_F0FF _).trans (by rw [encodeOp, opN3_fmtXKK, opKK_fmtXKK]; rfl)

theorem loadRegs (x : Reg) : Statement (.loadRegs x) :=
  (and_F0FF _).trans (by rw [encodeOp, opN3_fmtXKK, opKK_fmtXKK]; rfl)

end TableRow

end Sys2Proof.Laws
end

