-- ==== Sys2Proof/Machine/Assembler.lean ====
section
/-! DEFINITION. The assembler's side of the encoding (R110 to R112): how an instruction is spelled, and the image
of a program. The machine sees neither spelling nor labels. -/

namespace Sys2Proof.Machine

/-- One hexadecimal digit. -/
def hexDigit (n : Nat) : String :=
  ["0", "1", "2", "3", "4", "5", "6", "7", "8", "9", "A", "B", "C", "D", "E", "F"].getD n ""

/-- `V0` to `VF` (R110). -/
def spellReg (r : Reg) : String := "V" ++ hexDigit r.val

/-- Three hexadecimal digits for `nnn` (log entry 28). -/
def spellAddr (a : Addr) : String :=
  "0x" ++ hexDigit (a.toNat / 256) ++ hexDigit (a.toNat / 16 % 16) ++ hexDigit (a.toNat % 16)

/-- Two hexadecimal digits for `kk` (log entry 28). -/
def spellByte (b : Byte) : String := "0x" ++ hexDigit (b.toNat / 16) ++ hexDigit (b.toNat % 16)

/-- A mnemonic and two operands, the destination first. -/
def spell2 (mnemonic a b : String) : String := mnemonic ++ " " ++ a ++ ", " ++ b

/-- The conventional spelling of an instruction (R105, R110). -/
def spelling : Instr → String
  | .cls => "CLS"
  | .ret => "RET"
  | .sys nnn => "SYS " ++ spellAddr nnn
  | .jp nnn => "JP " ++ spellAddr nnn
  | .call nnn => "CALL " ++ spellAddr nnn
  | .seImm x kk => spell2 "SE" (spellReg x) (spellByte kk)
  | .sneImm x kk => spell2 "SNE" (spellReg x) (spellByte kk)
  | .seReg x y => spell2 "SE" (spellReg x) (spellReg y)
  | .ldImm x kk => spell2 "LD" (spellReg x) (spellByte kk)
  | .addImm x kk => spell2 "ADD" (spellReg x) (spellByte kk)
  | .ldReg x y => spell2 "LD" (spellReg x) (spellReg y)
  | .orReg x y => spell2 "OR" (spellReg x) (spellReg y)
  | .andReg x y => spell2 "AND" (spellReg x) (spellReg y)
  | .xorReg x y => spell2 "XOR" (spellReg x) (spellReg y)
  | .addReg x y => spell2 "ADD" (spellReg x) (spellReg y)
  | .subReg x y => spell2 "SUB" (spellReg x) (spellReg y)
  | .shr x _ => "SHR " ++ spellReg x
  | .subnReg x y => spell2 "SUBN" (spellReg x) (spellReg y)
  | .shl x _ => "SHL " ++ spellReg x
  | .sneReg x y => spell2 "SNE" (spellReg x) (spellReg y)
  | .ldI nnn => spell2 "LD" "I" (spellAddr nnn)
  | .jpV0 nnn => spell2 "JP" "V0" (spellAddr nnn)
  | .rnd x kk => spell2 "RND" (spellReg x) (spellByte kk)
  | .drw x y n => spell2 "DRW" (spellReg x) (spellReg y) ++ ", 0x" ++ hexDigit n.val
  | .skp x => "SKP " ++ spellReg x
  | .sknp x => "SKNP " ++ spellReg x
  | .ldVxDt x => spell2 "LD" (spellReg x) "DT"
  | .ldVxK x => spell2 "LD" (spellReg x) "K"
  | .ldDtVx x => spell2 "LD" "DT" (spellReg x)
  | .ldStVx x => spell2 "LD" "ST" (spellReg x)
  | .addIVx x => spell2 "ADD" "I" (spellReg x)
  | .ldFVx x => spell2 "LD" "F" (spellReg x)
  | .ldBVx x => spell2 "LD" "B" (spellReg x)
  | .storeRegs x => spell2 "LD" "[I]" (spellReg x)
  | .loadRegs x => spell2 "LD" (spellReg x) "[I]"

/-- The image of a program that is all instructions: their bytes in order, no header (R112). -/
def imageOf (program : List Instr) : List Byte := program.flatMap encode

end Sys2Proof.Machine
end

