-- ==== Sys2Proof/Tests/Slice0.lean ====
section
/-! SUPPORT. Tests of single steps against spec/95_test_vectors.md and the encodings of R105, and a witness for the
hypotheses of each statement. Expected values come from those files. -/

namespace Sys2Proof.Tests

open Sys2Proof Sys2Proof.Machine

/-! ## Helpers -/

/-- Some registers set. -/
def regs (l : List (Reg × Byte)) (s : State) : State := l.foldl (fun u p => u.setReg p.1 p.2) s

/-- Some bytes of memory set, directly. -/
def bytes (a : Nat) (l : List Byte) (s : State) : State := s.setMem (s.mem.poke a l)

/-- Some cells lit. -/
def lit (l : List (Nat × Nat)) : Framebuffer :=
  l.foldl (fun f p => f ||| BitVec.twoPow 2048 (fbIndex p.1 p.2)) 0#2048

/-- The state after one step that runs the opcode `op`, placed at `pc`; none if the step does not answer one. -/
def ran (op : Nat) (s : State) : Option State :=
  match step (s.withFetchWord 16 op) with
  | .next t => some t
  | .fault _ => none
  | .refused _ => none

/-- The state after some host operations; none if one does not answer one. -/
def host (ms : List Move) (s : State) : Option State :=
  match run ms s with
  | .next t => some t
  | .fault _ => none
  | .refused _ => none

/-- The launch state with `pc` at the last word of memory. -/
def atTop : State := { State.reset with pc := 0x0FFE#16 }

/-- A machine after `Construct`, with little in its boot region. -/
def fresh : State := { State.reset with locked := false, cpuPresent := false, pc := 0x0000#16 }

/-! ## Well-formedness: each ill-formed term is refused (R104, R107) -/

theorem test_sys_0E0_is_ill_formed : (Instr.sys 0x0E0#12).wellFormed = false := by decide

theorem test_sys_0EE_is_ill_formed : (Instr.sys 0x0EE#12).wellFormed = false := by decide

theorem test_sys_0E1_is_well_formed : (Instr.sys 0x0E1#12).wellFormed = true := by decide

/-! ## Decoding: every constructor, from a word written out from R105 -/

theorem test_decode_rows_0_to_4 :
    [0x00E0, 0x00EE, 0x0123, 0x1ABC, 0x2DEF, 0x3A15, 0x4B26].map (decodeTableWord 16) =
      [some .cls, some .ret, some (.sys 0x123#12), some (.jp 0xABC#12), some (.call 0xDEF#12),
        some (.seImm 10 0x15#8), some (.sneImm 11 0x26#8)] := by decide

theorem test_decode_rows_5_to_7 :
    [0x5120, 0x6A15, 0x7C01].map (decodeTableWord 16) =
      [some (.seReg 1 2), some (.ldImm 10 0x15#8), some (.addImm 12 0x01#8)] := by decide

theorem test_decode_rows_8 :
    [0x8120, 0x8231, 0x8342, 0x8453, 0x8564, 0x8675, 0x8786, 0x8897, 0x89AE].map (decodeTableWord 16) =
      [some (.ldReg 1 2), some (.orReg 2 3), some (.andReg 3 4), some (.xorReg 4 5), some (.addReg 5 6),
        some (.subReg 6 7), some (.shr 7 8), some (.subnReg 8 9), some (.shl 9 10)] := by decide

theorem test_decode_rows_9_to_D :
    [0x9AB0, 0xA600, 0xBFFF, 0xC30F, 0xDAB4].map (decodeTableWord 16) =
      [some (.sneReg 10 11), some (.ldI 0x600#12), some (.jpV0 0xFFF#12), some (.rnd 3 0x0F#8),
        some (.drw 10 11 4)] := by decide

theorem test_decode_rows_E_F :
    [0xE19E, 0xE2A1, 0xF307, 0xF40A, 0xF515, 0xF618, 0xF71E, 0xF829, 0xF933, 0xFA55, 0xFB65].map
        (decodeTableWord 16) =
      [some (.skp 1), some (.sknp 2), some (.ldVxDt 3), some (.ldVxK 4), some (.ldDtVx 5), some (.ldStVx 6),
        some (.addIVx 7), some (.ldFVx 8), some (.ldBVx 9), some (.storeRegs 10), some (.loadRegs 11)] := by
  decide

/-- T30.8, T30.9, T30.10. -/
theorem test_decode_failures_5_8_9 :
    [0x5121, 0x9121, 0x912F, 0x8128, 0x8129, 0x812A, 0x812B, 0x812C, 0x812D, 0x812F].map (decodeTableWord 16) =
      List.replicate 10 none := by decide

/-- T30.14, T30.16. -/
theorem test_decode_failures_E_F :
    [0xE19F, 0xE100, 0xE1A0, 0xF000, 0xF075, 0xF085, 0xF01F, 0xF0FF].map (decodeTableWord 16) =
      List.replicate 8 none := by decide

/-- R72, R100: the high byte comes first, and the bytes after the instruction are left. -/
theorem test_decode_is_big_endian :
    decode [0x6A#8, 0x15#8, 0x77#8] = .ok (.ldImm 10 0x15#8, [0x77#8]) := by decide

theorem test_decode_truncated : decode [0x6A#8] = .error .truncated := by decide

/-- The encoder writes the words of R105. -/
theorem test_encode_words :
    [encode (.drw 10 11 4), encode (.subnReg 1 2), encode (.shl 1 15), encode (.loadRegs 15)] =
      [[0xDA#8, 0xB4#8], [0x81#8, 0x27#8], [0x81#8, 0xFE#8], [0xFF#8, 0x65#8]] := by decide

/-- Spellings of R105 and R110. -/
theorem test_spellings :
    [.jpV0 0xABC#12, .ldImm 10 0x15#8, .shr 1 15, .storeRegs 15, .drw 10 11 4, .ldDtVx 0].map spelling =
      ["JP V0, 0xABC", "LD VA, 0x15", "SHR V1", "LD [I], VF", "DRW VA, VB, 0x4", "LD DT, V0"] := by decide +kernel

/-- The image of program P1 of the spec. -/
theorem test_image_of_P1 :
    imageOf [.ldImm 0 0x05#8, .ldImm 1 0xF8#8, .addReg 1 0, .addImm 0 0xFF#8, .seImm 0 0x00#8, .jp 0x204#12,
        .jp 0x20C#12] =
      [0x60#8, 0x05#8, 0x61#8, 0xF8#8, 0x81#8, 0x04#8, 0x70#8, 0xFF#8, 0x30#8, 0x00#8, 0x12#8, 0x04#8, 0x12#8,
        0x0C#8] := by decide

/-! ## Memory Unit (T20) -/

/-- T20.1, T20.9. -/
theorem test_word_read :
    (bytes 0x300 [0x12#8, 0x34#8] State.reset).memReadWord 0x300 = .ok 0x1234#16 ∧
    State.reset.memReadWord 0xFFF = .error (.addressOutOfRange 0x1000) := by decide

/-- T20.3, T20.4. -/
theorem test_locked_writes :
    (State.reset.memWrite 0x250 0xAB#8).final.mem.read 0x250 = 0x00#8 ∧
    (State.reset.memWrite 0x600 0xAB#8).final.mem.read 0x600 = 0xAB#8 := by decide

/-- T20.5, T20.6. -/
theorem test_boot_region_writes :
    (State.reset.memWrite 0x000 0x99#8).final.mem.read 0x000 = 0x99#8 ∧
    ({ State.reset with bootWritable := false }.memWrite 0x000 0x99#8).final.mem.read 0x000 = 0xF0#8 := by
  decide

/-- T20.7. -/
theorem test_straddling_word_write :
    (State.reset.memWriteWord 0x5FF 0xBEEF#16).final.mem = [(0x600, 0xEF#8)] := by decide

/-- T20.12 to T20.15. -/
theorem test_fb_draw :
    ((State.reset.fbDraw 3 2 true).1, (State.reset.fbDraw 3 2 false).1) = (false, true) ∧
    (State.reset.fbDraw 3 2 true).2.fb = lit [(3, 2)] ∧
    ((State.reset.fbDraw 3 2 true).2.fbDraw 3 2 true).1 = true := by decide +kernel

/-! ## The cycle (T40) -/

/-- T40.1, T40.2: an odd `pc` is legal. -/
theorem test_cycle_advances :
    (ran 0x6A15 State.reset).map (fun t => (t.reg 10, t.pc)) = some (0x15#8, 0x202#16) ∧
    (ran 0x6A15 { State.reset with pc := 0x0201#16 }).map (·.pc) = some 0x203#16 := by decide

/-- T40.5, T40.6: the fetch faults at the high byte. -/
theorem test_fetch_out_of_range :
    (host [.cycle] { State.reset with pc := 0x1000#16 }).map (·.fault) = some (some (.addressOutOfRange 0x1000)) ∧
    (host [.cycle] { State.reset with pc := 0x10FE#16 }).map (·.fault) = some (some (.addressOutOfRange 0x10FE)) := by
  decide

/-- T40.10. -/
theorem test_font_is_no_code :
    (host [.cycle] { State.reset with pc := 0x0000#16 }).map (·.fault) = some (some (.decodeFailure 0xF090#16)) := by
  decide

/-- T20.19: the launch state runs SYS 0. -/
theorem test_launch_state_runs_sys :
    (host [.loadImage [], .constructCpu, .cycle] fresh).map (·.fault) =
      some (some (.unimplementedOperation 0x0000#16)) := by decide

/-! ## Control transfer (T41) -/

/-- T41.1. -/
theorem test_jp : (ran 0x1ABC State.reset).map (·.pc) = some 0x0ABC#16 := by decide

/-- T41.4. -/
theorem test_jp_v0 : (ran 0xBFFF (regs [(0, 0xFF#8)] State.reset)).map (·.pc) = some 0x10FE#16 := by decide

/-- T41.6, T41.7. -/
theorem test_call :
    (ran 0x2300 { State.reset with sp := 15 }).map (fun t => (t.stack[15], t.sp, t.pc)) =
      some (0x0202#16, 16, 0x0300#16) ∧
    (ran 0x2300 { State.reset with sp := 16 }).map (·.fault) = some (some (.stackOverflow 0x0202#16)) := by decide

/-- T41.8, T41.9. -/
theorem test_ret :
    (ran 0x00EE { State.reset with sp := 1, stack := State.reset.stack.set 0 0x0206#16 }).map
        (fun t => (t.pc, t.sp, t.stack[0])) = some (0x0206#16, 0, 0x0000#16) ∧
    (ran 0x00EE State.reset).map (·.fault) = some (some (.stackUnderflow 0x0202#16)) := by decide

/-- T41.10, T41.11. -/
theorem test_se_imm :
    (ran 0x332A (regs [(3, 0x2A#8)] State.reset)).map (·.pc) = some 0x204#16 ∧
    (ran 0x332A (regs [(3, 0x2B#8)] State.reset)).map (·.pc) = some 0x202#16 := by decide

/-- T41.12, T41.13. -/
theorem test_sne_imm :
    (ran 0x432A (regs [(3, 0x2A#8)] State.reset)).map (·.pc) = some 0x202#16 ∧
    (ran 0x432A (regs [(3, 0x2B#8)] State.reset)).map (·.pc) = some 0x204#16 := by decide

/-- T41.14, T41.15. -/
theorem test_se_reg :
    (ran 0x5120 (regs [(1, 7#8), (2, 7#8)] State.reset)).map (·.pc) = some 0x204#16 ∧
    (ran 0x5120 (regs [(1, 7#8), (2, 8#8)] State.reset)).map (·.pc) = some 0x202#16 := by decide

/-- T41.16, T41.17. -/
theorem test_sne_reg :
    (ran 0x9120 (regs [(1, 7#8), (2, 8#8)] State.reset)).map (·.pc) = some 0x204#16 ∧
    (ran 0x9120 (regs [(1, 7#8), (2, 7#8)] State.reset)).map (·.pc) = some 0x202#16 := by decide

/-- T41.21. -/
theorem test_sys :
    (ran 0x0123 State.reset).map (·.fault) = some (some (.unimplementedOperation 0x0123#16)) := by decide

/-! ## Loads and stores (T42) -/

/-- T42.2. -/
theorem test_ld_reg :
    (ran 0x8120 (regs [(2, 0x7F#8), (15, 7#8)] State.reset)).map (fun t => (t.reg 1, t.reg 15)) =
      some (0x7F#8, 7#8) := by decide

/-- T42.3. -/
theorem test_ld_i : (ran 0xA600 State.reset).map (·.i) = some 0x0600#16 := by decide

/-- T42.5, T42.6: no masking of the digit. -/
theorem test_ld_f :
    (ran 0xF429 (regs [(4, 0x10#8)] State.reset)).map (·.i) = some 0x0050#16 ∧
    (ran 0xF429 (regs [(4, 0xFF#8)] State.reset)).map (·.i) = some 0x04FB#16 := by decide

/-- T42.10: each byte is routed by the lock on its own. -/
theorem test_ld_b_straddles :
    (ran 0xF033 { regs [(0, 234#8)] State.reset with i := 0x05FE#16 }).map (fun t => t.mem.read 0x600) =
      some 0x04#8 := by decide

/-- T42.12. -/
theorem test_ld_b_past_the_end :
    (ran 0xF033 { regs [(0, 234#8)] State.reset with i := 0x0FFE#16 }).map
        (fun t => (t.mem.read 0xFFE, t.mem.read 0xFFF, t.fault)) =
      some (0x02#8, 0x03#8, some (.addressOutOfRange 0x1000)) := by decide

/-- T42.14. -/
theorem test_store_regs :
    (ran 0xF255 { regs [(0, 1#8), (1, 2#8), (2, 3#8), (3, 4#8)] State.reset with i := 0x0700#16 }).map
        (fun t => ([0x6FF, 0x700, 0x701, 0x702, 0x703].map t.mem.read, t.i)) =
      some ([0#8, 1#8, 2#8, 3#8, 0#8], 0x0700#16) := by decide

/-- T42.17. -/
theorem test_store_regs_at_the_boot_edge :
    (ran 0xF155 { regs [(0, 0x11#8), (1, 0x22#8)] State.reset with i := 0x01FF#16, pc := 0x0300#16 }).map
        (fun t => (t.mem.read 0x1FF, t.mem.read 0x200)) = some (0x11#8, 0x00#8) := by decide

/-- T42.21. -/
theorem test_load_regs_reads_the_font :
    (ran 0xF465 State.reset).map (fun t => [0, 1, 2, 3, 4, 5].map t.reg) =
      some [0xF0#8, 0x90#8, 0x90#8, 0x90#8, 0xF0#8, 0x00#8] := by decide

/-- T42.22. -/
theorem test_load_regs_past_the_end :
    (ran 0xF165 { bytes 0xFFF [0x77#8] State.reset with i := 0x0FFF#16 }).map (fun t => (t.reg 0, t.fault)) =
      some (0x77#8, some (.addressOutOfRange 0x1000)) := by decide

/-! ## Arithmetic and logic (T43) -/

/-- The values of `V[1]` and `V[15]` after one opcode. -/
def v1vf (op : Nat) (l : List (Reg × Byte)) : Option (Byte × Byte) :=
  (ran op (regs l State.reset)).map fun t => (t.reg 1, t.reg 15)

/-- T43.2, T43.3. -/
theorem test_add_reg :
    v1vf 0x8124 [(1, 0x80#8), (2, 0x80#8)] = some (0x00#8, 0x01#8) ∧
    v1vf 0x8124 [(1, 0x7F#8), (2, 0x80#8)] = some (0xFF#8, 0x00#8) := by decide

/-- T43.6: for `x = 15` the carry stays. -/
theorem test_add_reg_vf : v1vf 0x8F14 [(15, 0xFF#8), (1, 0x02#8)] = some (0x02#8, 0x01#8) := by decide

/-- T43.10, T43.11. -/
theorem test_add_imm :
    (ran 0x7320 (regs [(3, 0xF0#8), (15, 7#8)] State.reset)).map (fun t => (t.reg 3, t.reg 15)) =
      some (0x10#8, 7#8) ∧
    (ran 0x7F01 (regs [(15, 0xFF#8)] State.reset)).map (·.reg 15) = some 0x00#8 := by decide

/-- T43.13. -/
theorem test_add_i :
    (ran 0xF21E { regs [(2, 1#8), (15, 5#8)] State.reset with i := 0xFFFF#16 }).map (fun t => (t.i, t.reg 15)) =
      some (0x0000#16, 5#8) := by decide

/-- T43.15, T43.16. -/
theorem test_sub :
    v1vf 0x8125 [(1, 5#8), (2, 7#8)] = some (0xFE#8, 0x01#8) ∧
    v1vf 0x8125 [(1, 7#8), (2, 5#8)] = some (0x02#8, 0x00#8) := by decide

/-- T43.15, T43.16. -/
theorem test_subn :
    v1vf 0x8127 [(1, 5#8), (2, 7#8)] = some (0x02#8, 0x00#8) ∧
    v1vf 0x8127 [(1, 7#8), (2, 5#8)] = some (0xFE#8, 0x01#8) := by decide

/-- T43.24. -/
theorem test_or : v1vf 0x8121 [(1, 0x0F#8), (2, 0xF0#8), (15, 7#8)] = some (0xFF#8, 7#8) := by decide

/-- T43.25. -/
theorem test_and : v1vf 0x8122 [(1, 0x3C#8), (2, 0x0F#8), (15, 7#8)] = some (0x0C#8, 7#8) := by decide

/-- T43.26. -/
theorem test_xor : v1vf 0x8123 [(1, 0xFF#8), (2, 0x0F#8), (15, 7#8)] = some (0xF0#8, 7#8) := by decide

/-- T43.28, T43.30. -/
theorem test_shr :
    v1vf 0x8126 [(1, 5#8), (2, 0xAA#8)] = some (0x02#8, 0x01#8) ∧
    v1vf 0x8F06 [(15, 3#8)] = some (0x00#8, 0x01#8) := by decide

/-- T43.31, T43.33. -/
theorem test_shl :
    v1vf 0x812E [(1, 0x81#8), (2, 0xAA#8)] = some (0x02#8, 0x80#8) ∧
    v1vf 0x8F0E [(15, 0x81#8)] = some (0x00#8, 0x80#8) := by decide

/-- T43.35: whatever the draw is. -/
theorem test_rnd_under_a_zero_mask :
    (ran 0xC300 (regs [(3, 9#8)] State.reset)).map (fun t => (t.reg 3, t.draws)) = some (0x00#8, 1) := by
  have h : ran 0xC300 (regs [(3, 9#8)] State.reset) =
      some (((regs [(3, 9#8)] State.reset).withFetchWord 16 0xC300).advancePc.random8.2.setReg 3
        (Config.random8 0 &&& 0x00#8)) := rfl
  rw [h]
  simp [State.random8, State.setReg, State.reg, State.advancePc, State.withFetchWord, placeOp, regs, State.reset]

/-! ## Display (T44) -/

/-- T44.3: the sprite wraps on both axes. -/
theorem test_drw_wraps :
    (ran 0xD012 { bytes 0x300 [0xC0#8, 0x81#8] (regs [(0, 62#8), (1, 31#8)] State.reset) with i := 0x0300#16 }).map
        (fun t => (t.fb, t.reg 15)) = some (lit [(62, 31), (63, 31), (62, 0), (5, 0)], 0x00#8) := by decide +kernel

/-- T44.2b, two rows of it: a lit cell under a set bit goes unlit and is reported. -/
theorem test_drw_collides :
    (ran 0xDAB2 { bytes 0x300 [0xF0#8, 0x90#8] (regs [(10, 10#8), (11, 5#8)] State.reset) with
        i := 0x0300#16, fb := lit [(13, 6), (20, 20)] }).map (fun t => (t.fb, t.reg 15)) =
      some (lit [(10, 5), (11, 5), (12, 5), (13, 5), (10, 6), (20, 20)], 0x01#8) := by decide +kernel

/-- T44.6: the coordinate is the old `V[15]`. -/
theorem test_drw_vf_coordinate :
    (ran 0xDF11 { bytes 0x300 [0x80#8] (regs [(15, 3#8), (1, 2#8)] State.reset) with i := 0x0300#16 }).map
        (fun t => (t.fb, t.reg 15)) = some (lit [(3, 2)], 0x00#8) := by decide +kernel

/-- T44.11. -/
theorem test_cls :
    (ran 0x00E0 { State.reset with fb := BitVec.allOnes 2048 }).map (·.fb) = some 0#2048 := by decide +kernel

/-! ## Timers, keypad, host (T45, T20) -/

/-- T45.1. -/
theorem test_ld_vx_dt : (ran 0xF207 { State.reset with dt := 0x3C#8 }).map (·.reg 2) = some 0x3C#8 := by decide

/-- T45.2. -/
theorem test_ld_dt_vx : (ran 0xF215 (regs [(2, 0x3C#8)] State.reset)).map (·.dt) = some 0x3C#8 := by decide

/-- T45.3. -/
theorem test_ld_st_vx : (ran 0xF218 (regs [(2, 5#8)] State.reset)).map (·.st) = some 5#8 := by decide

/-- T45.5, T45.6. -/
theorem test_ld_vx_k :
    (ran 0xF00A State.reset).map (fun t => (t.status, t.pc)) = some (.waitingKeypress 0, 0x202#16) ∧
    (host [.cycle, .keyPress 3] { State.reset with status := .waitingKeypress 0 }).map
      (fun t => (t.reg 0, t.status)) = some (3#8, .running) := by decide

/-- T45.9, T45.14. -/
theorem test_skp :
    (ran 0xE19E { regs [(1, 3#8)] State.reset with keys := 0x0008#16 }).map (·.pc) = some 0x204#16 ∧
    (ran 0xE19E { regs [(1, 0x10#8)] State.reset with keys := 0xFFFF#16 }).map (·.fault) =
      some (some (.keyIndexOutOfRange 0x10#8)) := by decide

/-- T45.11, T45.12. -/
theorem test_sknp :
    (ran 0xE1A1 { regs [(1, 3#8)] State.reset with keys := 0x0008#16 }).map (·.pc) = some 0x202#16 ∧
    (ran 0xE1A1 (regs [(1, 3#8)] State.reset)).map (·.pc) = some 0x204#16 := by decide

/-- T45.4. -/
theorem test_ticks_stop_at_zero :
    (host [.tick, .tick, .tick] { State.reset with dt := 2#8 }).map (fun t => (t.dt, t.st)) =
      some (0#8, 0#8) := by decide

/-- T20.18. -/
theorem test_construct_unlocked : (host [.constructCpu] fresh).map (·.fault) = some (some .constructUnlocked) := by
  decide

/-- T20.16, T20.17: an image passes into the working region; one byte too many is fatal. -/
theorem test_image_load :
    (host [.loadImage (List.replicate 1024 0x00#8 ++ [0xDE#8, 0xAD#8])] fresh).map (fun t => (t.mem, t.locked)) =
      some ([(0x600, 0xDE#8), (0x601, 0xAD#8)], true) ∧
    (host [.loadImage (List.replicate 3585 0x00#8)] fresh).map (fun t => (t.fault, t.locked)) =
      some (some (.addressOutOfRange 0x1000), false) := by decide +kernel

/-! ## A witness for the hypotheses of each statement that has some, with the boundary values of its clauses -/

theorem witness_DecodeOfEncode : (Instr.sys 0x0E1#12).wellFormed = true ∧ (Instr.shr 15 15).wellFormed = true := by
  decide

theorem witness_EncodeOfDecode : decodeOp 0x81F6#16 = some (.shr 1 15) := by decide

/-- One opcode in each of the five groups, and a legal neighbour of each. -/
theorem witness_Undecoded :
    [0x5001#16, 0x8008#16, 0x9FFF#16, 0xE09D#16, 0xFF66#16].map decodeOp = List.replicate 5 none ∧
    [0x5000#16, 0x8007#16, 0x9FF0#16, 0xE09E#16, 0xFF65#16].map decodeOp =
      [some (.seReg 0 0), some (.subnReg 0 0), some (.sneReg 15 15), some (.skp 0), some (.loadRegs 15)] := by
  decide

/-- T40.7: the last fetch inside memory. -/
theorem witness_StepRuns :
    let s := bytes 0xFFE [0x60#8, 0x01#8] atTop
    s.fault = none ∧ s.cpuPresent = true ∧ s.status = .running ∧ s.pc.toNat + 1 < 4096 ∧
      decode [s.mem.read s.pc.toNat, s.mem.read (s.pc.toNat + 1)] = .ok (.ldImm 0 0x01#8, []) := by decide

/-- A waiting state, and a host operation that changes its status. -/
theorem witness_Waiting :
    let s := { State.reset with status := .waitingKeypress 15 }
    s.fault = none ∧ s.cpuPresent = true ∧
      (host [.keyPress 15] s).map (fun t => decide (t.status ≠ s.status)) = some true := by decide

theorem witness_Faulted : (State.reset.raise .constructUnlocked).fault = some .constructUnlocked := by decide

/-- T40.4, T40.5: both ends of the two clauses of `max`. -/
theorem witness_FetchPastTheEnd :
    [0x0FFF#16, 0x1000#16, 0x1001#16].map (fun a =>
      (host [.cycle] { State.reset with pc := a }).map (·.fault)) =
    [some (some (.addressOutOfRange 0x1000)), some (some (.addressOutOfRange 0x1000)),
      some (some (.addressOutOfRange 0x1001))] := by decide

/-- T60. -/
theorem witness_UndecodableOpcode :
    let s := bytes 0x200 [0x51#8, 0x21#8] State.reset
    s.fault = none ∧ s.cpuPresent = true ∧ s.status = .running ∧ s.memReadWord s.pc.toNat = .ok 0x5121#16 ∧
      decodeOp 0x5121#16 = none := by decide

theorem witness_PlacedOpcode :
    State.reset.mem.wf = true ∧ decodeTableWord 16 0x6A15 = some (.ldImm 10 0x15#8) ∧
    (bytes 0x600 [1#8] State.reset).mem.wf = true := by decide

/-- The last byte that exists and the first that does not. -/
theorem witness_ByteRead :
    State.reset.memRead 4095 = .ok 0x00#8 ∧ State.reset.memRead 4096 = .error (.addressOutOfRange 4096) := by decide

/-- The four borders of the regions, and the end of memory. -/
theorem witness_ByteWrite :
    [0x1FF, 0x200, 0x5FF, 0x600, 4095].map (fun a => (State.reset.memWrite a 1#8).final.mem.read a) =
      [1#8, 0#8, 0#8, 1#8, 1#8] ∧
    (State.reset.memWrite 4096 1#8).final.fault = some (.addressOutOfRange 4096) := by decide

/-- T20.9. -/
theorem witness_WordRead :
    let s := bytes 4094 [0x12#8, 0x34#8] State.reset
    s.memReadWord 4094 = .ok 0x1234#16 ∧ s.memReadWord 4095 = .error (.addressOutOfRange 4096) ∧
      s.memReadWord 4096 = .error (.addressOutOfRange 4096) := by decide

/-- R71: the last word, the word that runs past the end, and the first address past it. -/
theorem witness_WordWrite :
    State.reset.mem.wf = true ∧
    [4094, 4095, 4096].map (fun a =>
        ((State.reset.memWriteWord a 0xBEEF#16).final.mem, (State.reset.memWriteWord a 0xBEEF#16).final.fault)) =
      [([(4094, 0xBE#8), (4095, 0xEF#8)], none), ([(4095, 0xBE#8)], some (.addressOutOfRange 0x1000)),
        ([], some (.addressOutOfRange 0x1000))] := by decide

/-- The longest image that fits, and the shortest that does not. -/
theorem witness_ImageLoad :
    fresh.mem.wf = true ∧ fresh.fault = none ∧ fresh.locked = false ∧ fresh.cpuPresent = false ∧
      (List.replicate 3584 (0x00#8 : Byte)).length ≤ 3584 ∧ 3584 < (List.replicate 3585 (0x00#8 : Byte)).length := by
  exact ⟨rfl, rfl, rfl, rfl, List.length_replicate.le, by rw [List.length_replicate]; decide⟩

/-- DRW whose last row is the last byte of memory; the cell under its set bit is lit, so it collides, and on the
blank screen it does not. -/
theorem witness_Drw :
    let s := { bytes 0xFFE [0x00#8, 0x80#8] State.reset with i := 0x0FFE#16, fb := lit [(0, 1)] }
    (∀ row, row < (2 : Height).val → s.ea row < 4096) ∧
      s.cell 0 1 = true ∧ s.spriteCovers 0 1 2 0 1 ∧ ∀ cx cy, { s with fb := 0#2048 }.cell cx cy = false := by
  refine ⟨by decide, by decide +kernel, ⟨1, by decide, 0, by decide, by decide, by decide, by decide⟩, ?_⟩
  intro cx cy
  simp [State.cell]

/-- T44.1: both draws answer, with the coordinates kept. -/
theorem witness_DrawingTwice :
    let s := { bytes 0x300 [0x80#8] State.reset with i := 0x0300#16 }
    (∀ row, row < (1 : Height).val → s.ea row < 4096) ∧
    ∃ t u, exec (.drw 0 1 1) s = .next t ∧ t.reg 0 = s.reg 0 ∧ t.reg 1 = s.reg 1 ∧
      exec (.drw 0 1 1) t = .next u ∧ t.reg 15 = 0x00#8 ∧ u.reg 15 = 0x01#8 :=
  ⟨by decide, _, _, rfl, by decide +kernel, by decide +kernel, rfl, by decide +kernel, by decide +kernel⟩

theorem witness_Call : { State.reset with sp := 15 }.sp.val < 16 ∧ ¬ { State.reset with sp := 16 }.sp.val < 16 := by
  decide

theorem witness_Ret :
    { State.reset with sp := 1 }.sp.val = (0 : Fin 16).val + 1 ∧
    { State.reset with sp := 16 }.sp.val = (15 : Fin 16).val + 1 := by decide

theorem witness_StackLimits :
    State.reset.fault = none ∧ State.reset.sp.val = 0 ∧ { State.reset with sp := 16 }.sp.val = 16 := by decide

theorem witness_RetUndoesCall :
    { State.reset with sp := 15 }.sp.val = (15 : Fin 16).val ∧ State.reset.stack[(15 : Fin 16)] = 0x0000#16 := by
  decide

theorem witness_Sys : (0x0E1#12 : Addr) ≠ 0x0E0#12 ∧ (0x0E1#12 : Addr) ≠ 0x0EE#12 ∧ State.reset.fault = none := by
  decide

/-- LD B up to the last byte, and across the border of the program region. -/
theorem witness_LdB :
    State.reset.mem.wf = true ∧ { State.reset with i := 0x0FFD#16 }.ea 2 < 4096 ∧
    ({ State.reset with i := 0x05FE#16 }.writable 0x5FF, { State.reset with i := 0x05FE#16 }.writable 0x600) =
      (false, true) := by decide

theorem witness_Block :
    { State.reset with i := 0x0FF0#16 }.ea (15 : Reg).val < 4096 ∧
    4096 ≤ { State.reset with i := 0x0FF1#16 }.ea (15 : Reg).val := by decide

/-- Each clause of the block accesses past the end, at the first address that does not exist, and from `I` far
outside. -/
theorem witness_BlockPastTheEnd :
    State.reset.fault = none ∧ 4096 ≤ { State.reset with i := 0x0FFE#16 }.ea 2 ∧
    4096 ≤ { State.reset with i := 0x1000#16 }.ea (0 : Reg).val ∧
    4096 ≤ { State.reset with i := 0xFFFF#16 }.ea (15 : Reg).val ∧
    (1 < (2 : Height).val ∧ 4096 ≤ { State.reset with i := 0x0FFF#16 }.ea 1) := by decide

theorem witness_LoadAfterStore :
    State.reset.mem.wf = true ∧ 0x600 ≤ { State.reset with i := 0x0600#16 }.i.toNat ∧
    { State.reset with i := 0x0600#16 }.ea (15 : Reg).val < 4096 := by decide

theorem witness_ShlThenShr : (14 : Reg) ≠ 15 := by decide

theorem witness_KeyWait : State.reset.fault = none ∧ State.reset.cpuPresent = true := by decide

/-- The last key and the first number that is no key. -/
theorem witness_KeyNumbers :
    ((regs [(1, 15#8)] State.reset).reg 1).toNat ≤ 15 ∧ 15 < ((regs [(1, 16#8)] State.reset).reg 1).toNat := by
  decide

theorem witness_HostMoves :
    State.reset.fault = none ∧ State.reset.cpuPresent = true ∧ State.reset.status = .running ∧
    fresh.fault = none ∧ fresh.cpuPresent = false := by decide

theorem witness_HostReads : (4095 : Nat) < 4096 ∧ State.reset.cpuPresent = true := by decide

theorem witness_ConstructUnlocked : fresh.fault = none ∧ fresh.cpuPresent = false ∧ fresh.locked = false := by decide

/-- A state other than the launch state that meets the invariant and has a next state. -/
theorem witness_EveryCycle : ∃ t, atTop.Inv ∧ step atTop = .next t ∧ t.fault = some (.unimplementedOperation 0#16) := by
  refine ⟨_, ⟨rfl, fun _ => rfl, fun _ => ⟨by decide, fun k => ?_⟩⟩, rfl, by decide⟩
  simp [atTop, State.reset]

/-- A state that meets the invariant, and each kind of host operation answering a state from some state. -/
theorem witness_EveryHostMove :
    atTop.Inv ∧ (∃ t, act .tick atTop = .next t) ∧ (∃ t, act (.keyPress 15) atTop = .next t) ∧
    (∃ t, act .cycle atTop = .next t) ∧ (∃ t, act (.loadImage [0x12#8, 0x00#8]) fresh = .next t) ∧
    ∃ t, act .constructCpu fresh = .next t := by
  refine ⟨⟨rfl, fun _ => rfl, fun _ => ⟨by decide, fun k => ?_⟩⟩, ⟨_, rfl⟩, ⟨_, rfl⟩, ⟨_, rfl⟩, ⟨_, rfl⟩, ⟨_, rfl⟩⟩
  simp [atTop, State.reset]

/-- A run of host operations from construction that answers a state. -/
theorem witness_run_from_construct :
    ∃ t, run [.isLocked, .loadImage [], .constructCpu, .setKeys 1#16] (construct recommendedBootImage false) =
      .next t := ⟨_, rfl⟩

/-- A store that completes on a locked machine, the boot region open and hardened. -/
theorem witness_LockedRegions :
    let s := { regs [(0, 0x11#8)] State.reset with i := 0x01FF#16 }.withFetchWord 16 0xF055
    s.mem.wf = true ∧ s.locked = true ∧
    (ran 0xF055 { s with bootWritable := true }).map (fun t => (t.fault, t.mem.read 0x1FF)) = some (none, 0x11#8) ∧
    (ran 0xF055 { s with bootWritable := false }).map (fun t => (t.fault, t.mem.read 0x1FF)) = some (none, 0x00#8) := by
  decide

/-- Instructions that complete and are neither flag writers nor name the flag register; the loop that stops just
before it. -/
theorem witness_OnlyFlagWriters :
    writesFlag (.loadRegs 14) = false ∧ namesFlag (.loadRegs 14) = false ∧
    ∃ t, exec (.loadRegs 14) State.reset = .next t ∧ t.good := ⟨rfl, rfl, _, rfl, rfl⟩

theorem witness_OnlyIndexWriters :
    writesIndex (.storeRegs 15) = false ∧
    ∃ t, exec (.storeRegs 15) { State.reset with i := 0x0600#16 } = .next t ∧ t.good := ⟨rfl, _, rfl, rfl⟩

/-- Each of the three writers changes its item. -/
theorem witness_ControlState :
    (ran 0xF015 (regs [(0, 1#8)] State.reset)).map (fun t => (t.fault, t.dt)) = some (none, 1#8) ∧
    (ran 0xF018 (regs [(0, 1#8)] State.reset)).map (fun t => (t.fault, t.st)) = some (none, 1#8) ∧
    (ran 0xFF0A State.reset).map (fun t => (t.fault, t.status)) = some (none, .waitingKeypress 15) := by decide

theorem witness_MayRaise : mayRaise .cls = false ∧ mayRaise (.addReg 15 15) = false := by decide

end Sys2Proof.Tests
end

section
/-! SUPPORT. The invariant `State.Inv`: the launch state and `Construct` meet it, and a cycle and every host
operation keep it. -/

namespace Sys2Proof.Machine

/-- The stack's part of the invariant: every slot at most 0x1000, and zero at or above `sp` (R29, D32). -/
def State.StackInv (s : State) : Prop :=
  ∀ k : Fin 16, s.stack[k].toNat ≤ 0x1000 ∧ (s.sp.val ≤ k.val → s.stack[k] = 0x0000#16)

/-- The invariant with its part about the stack named. -/
theorem inv_iff {s : State} :
    s.Inv ↔ s.mem.wf = true ∧ (s.cpuPresent = true → s.locked = true) ∧
      (s.fault = none → s.pc.toNat ≤ 0x10FE ∧ s.StackInv) := Iff.rfl

/-- A stack of zeros meets the stack's part of the invariant, whatever `sp` is. -/
theorem stackInv_of_zeros {s : State} (h : s.stack = Vector.replicate 16 0x0000#16) : s.StackInv := by
  intro k
  simp [h]

/-- Pushing a word of at most 0x1000 keeps the stack's part of the invariant (R28). -/
theorem stackInv_push {s : State} {w : Word} (h : s.StackInv) (hw : w.toNat ≤ 0x1000) (hsp : s.sp.val < 16) :
    State.StackInv { s with stack := s.stack.set s.sp.val w hsp, sp := ⟨s.sp.val + 1, by omega⟩ } := by
  intro k
  obtain ⟨hk, hz⟩ := h k
  simp only [Fin.getElem_fin, Vector.getElem_set] at hk hz ⊢
  split
  · exact ⟨hw, fun _ => by omega⟩
  · exact ⟨hk, fun _ => hz (by omega)⟩

/-- Popping keeps the stack's part of the invariant, because it clears the slot it frees (R29, D32). -/
theorem stackInv_pop {s : State} {t : Word} (h : s.StackInv) (hsp : 0 < s.sp.val) :
    State.StackInv { s with
      pc := t
      stack := s.stack.set (s.sp.val - 1) 0x0000#16 (by omega)
      sp := ⟨s.sp.val - 1, by omega⟩ } := by
  intro k
  obtain ⟨hk, hz⟩ := h k
  simp only [Fin.getElem_fin, Vector.getElem_set] at hk hz ⊢
  split
  · exact ⟨by decide, fun _ => rfl⟩
  · exact ⟨hk, fun _ => hz (by omega)⟩

/-- A raise keeps the invariant: it records a fatal condition, after which `pc` and the stack are free. -/
theorem inv_raise {s : State} (hs : s.Inv) (c : Fault) : (s.raise c).Inv := by
  obtain ⟨hm, hl, -⟩ := hs
  exact ⟨hm, hl, fun hf => by simp at hf⟩

theorem inv_setPc {s : State} {p : Word} (hs : s.Inv) (hp : p.toNat ≤ 0x10FE) : (s.setPc p).Inv := by
  obtain ⟨hm, hl, hc⟩ := inv_iff.mp hs
  exact ⟨hm, hl, fun hf => ⟨hp, (hc hf).2⟩⟩

/-- An instruction that finds `pc` at most 0x1000 keeps the invariant: a skip leaves `pc` at most 0x1002, a jump at
most 0x10FE (R141), CALL stacks a word of at most 0x1000, and RET goes to one. -/
theorem exec_keeps_inv {i : Instr} {s t : State} (hs : s.Inv) (hf : s.fault = none)
    (hpc : s.pc.toNat ≤ 0x1000) (h : exec i s = .next t) : t.Inv := by
  obtain ⟨hm, hl, hc⟩ := inv_iff.mp hs
  obtain ⟨-, hst⟩ := hc hf
  rcases exec_cases h with ⟨ht, hwf⟩ | ⟨ht, hp⟩ | ⟨hsp, nnn, rfl⟩ | ⟨hsp, rfl⟩
  · rw [ht]
    exact ⟨hwf hm, hl, fun _ => ⟨by simp only; omega, hst⟩⟩
  · rw [ht]
    refine inv_setPc hs ?_
    rcases hp with hp | hp | hp
    · rw [hp]; omega
    · rw [hp]; bv_omega
    · exact hp
  · exact ⟨hm, hl, fun _ => ⟨by simp only [State.setPc_pc, zextAddr_toNat]; omega, stackInv_push hst hpc hsp⟩⟩
  · have htop := (hst ⟨s.sp.val - 1, by omega⟩).1
    exact ⟨hm, hl, fun _ => ⟨Nat.le_trans htop (by decide), stackInv_pop hst hsp⟩⟩

/-- A cycle keeps the invariant: a fetch that answers an opcode leaves the advanced `pc` at most 0x1000 (R134). -/
theorem step_keeps_inv {s t : State} (hs : s.Inv) (h : step s = .next t) : t.Inv := by
  have advanced : ∀ {op}, s.memReadWord s.pc.toNat = .ok op → (s.pc + 2#16).toNat ≤ 0x1000 := by
    intro op hw
    have := memReadWord_ok_lt hw
    bv_omega
  rcases step_cases h with rfl | ⟨hf, -, -, hfetch⟩
  · exact hs
  rcases hfetch with ⟨c, -, rfl⟩ | ⟨op, hw, -, rfl⟩ | ⟨op, i, hw, -, hx⟩
  · exact inv_raise hs c
  · exact inv_raise (inv_setPc hs (Nat.le_trans (advanced hw) (by decide))) _
  · exact exec_keeps_inv (inv_setPc hs (Nat.le_trans (advanced hw) (by decide))) hf (advanced hw) hx

theorem construct_mem_wf (boot : Vector Byte 512) (w : Bool) : (construct boot w).mem.wf = true :=
  Memory.wf_poke (by simp [memSize]) rfl

theorem construct_inv (boot : Vector Byte 512) (w : Bool) : (construct boot w).Inv :=
  ⟨construct_mem_wf boot w, fun h => absurd h (by simp [construct]),
    fun _ => ⟨by simp [construct], stackInv_of_zeros rfl⟩⟩

/-- Every host operation keeps the invariant. An image load stays in the address space, and the CPU Engine is only
constructed on a locked Memory Unit (R75, R272). -/
theorem act_keeps_inv {m : Move} {s t : State} (hs : s.Inv) (h : act m s = .next t) : t.Inv := by
  obtain ⟨hm, hl, hc⟩ := inv_iff.mp hs
  rcases act_cases h with rfl | ⟨-, hload | hcpu | hcycle | hkeys | hpress | htick⟩
  · exact hs
  · obtain ⟨bytes, -, -, -, ⟨-, rfl⟩ | ⟨hlen, rfl⟩⟩ := hload
    · exact inv_raise hs _
    · exact ⟨Memory.wf_poke (by simp only [memSize]; omega) hm, fun _ => rfl, hc⟩
  · obtain ⟨-, -, ⟨-, rfl⟩ | ⟨hlock, rfl⟩⟩ := hcpu
    · exact inv_raise hs _
    · exact ⟨hm, fun _ => hlock, fun _ => ⟨by simp, stackInv_of_zeros rfl⟩⟩
  · exact step_keeps_inv hs hcycle.2
  · obtain ⟨mask, -, -, rfl⟩ := hkeys
    exact hs
  · obtain ⟨k, r, -, -, -, rfl⟩ := hpress
    exact hs
  · obtain ⟨-, -, rfl⟩ := htick
    exact hs

/-- Settles O54, by the four kinds of effect an instruction can have and the bound of the fetch on `pc`. -/
theorem everyCycleKeepsTheInvariant : Obligations.EveryCycleKeepsTheInvariant :=
  fun _ _ => step_keeps_inv

/-- Settles O55, by the cases of a host operation; a cycle is O54's lemma. -/
theorem everyHostMoveKeepsTheInvariant : Obligations.EveryHostMoveKeepsTheInvariant :=
  ⟨construct_inv, fun _ _ _ => act_keeps_inv⟩

/-- Settles O53: memory lists nothing, the lock is engaged, and the stack is all zeros. -/
theorem launchStateMeetsTheInvariant : Obligations.LaunchStateMeetsTheInvariant :=
  ⟨Memory.wf_reset, fun _ => rfl, fun _ => ⟨by decide, stackInv_of_zeros rfl⟩⟩

end Sys2Proof.Machine
end

section
/-! SUPPORT. Bring-up (R270 to R273): the state it ends in, for every boot image, boot parameter and image. -/

namespace Sys2Proof.Machine

/-- Memory after bring-up: the boot image from 0x000 and the image from 0x200, on memory that lists nothing. -/
def launchMemory (boot : Vector Byte 512) (bytes : List Byte) : Memory :=
  Memory.poke (Memory.poke [] 0 boot.toList) 0x200 bytes

/-- The three stages of bring-up answer the launch state with its own memory and boot parameter. -/
theorem run_bringUp (boot : Vector Byte 512) (w : Bool) {bytes : List Byte} (h : bytes.length ≤ 3584) :
    run [.loadImage bytes, .constructCpu] (construct boot w) =
      .next { State.reset with mem := launchMemory boot bytes, bootWritable := w } := by
  have hload : act (.loadImage bytes) (construct boot w) =
      .next { construct boot w with mem := launchMemory boot bytes, locked := true } :=
    if_neg (Nat.not_lt.mpr h)
  simp only [run, hload]
  rfl

/-- What each byte reads as after bring-up: the boot image, the image, then zeros (R39, D10). -/
theorem read_launchMemory (boot : Vector Byte 512) {bytes : List Byte} (h : bytes.length ≤ 3584) (a : Nat) :
    (launchMemory boot bytes).read a =
      if a < 0x200 then boot.toList.getD a 0x00#8
      else if a < 0x200 + bytes.length then bytes.getD (a - 0x200) 0x00#8
      else 0x00#8 := by
  have hboot : 0 + boot.toList.length ≤ memSize := by simp [memSize]
  have hbytes : 0x200 + bytes.length ≤ memSize := by simp only [memSize]; omega
  rw [launchMemory, Memory.read_poke a hbytes (Memory.wf_poke hboot rfl), Memory.read_poke a hboot rfl]
  by_cases ha : a < 0x200
  · rw [if_neg (by omega), if_pos (by simpa using ha), if_pos ha]; rfl
  · rw [if_neg ha]
    by_cases hb : a < 0x200 + bytes.length
    · rw [if_pos ⟨by omega, hb⟩, if_pos hb]; rfl
    · rw [if_neg (fun hn => hb hn.2), if_neg (by simpa using ha), if_neg hb]
      exact if_neg ha

/-- Writing what an unlisted address reads as anyway lists nothing. -/
theorem poke_nil_of_unlisted {bytes : List Byte} {a : Nat}
    (h : ∀ k, (hk : k < bytes.length) → bytes[k] = Memory.unlisted (a + k)) : Memory.poke [] a bytes = [] := by
  induction bytes generalizing a with
  | nil => rfl
  | cons b rest ih =>
    have hb : Memory.write [] a b = [] := if_pos (h 0 (by simp))
    rw [Memory.poke, hb]
    refine ih fun k hk => ?_
    rw [Nat.add_assoc, Nat.add_comm 1]
    exact h (k + 1) (by simpa using hk)

/-- The recommended boot image alone leaves a memory that lists nothing (R64, log entry 1). -/
theorem launchMemory_recommended : launchMemory recommendedBootImage [] = [] := by
  rw [launchMemory, Memory.poke]
  refine poke_nil_of_unlisted fun k hk => ?_
  have hk' : k < 0x200 := by simpa using hk
  simp [recommendedBootImage, Memory.unlisted, hk']

/-- Settles O16, from the state that bring-up answers and the bytes of its memory. -/
theorem bringUpLeavesTheLaunchState : Obligations.BringUpLeavesTheLaunchState := by
  intro boot w bytes h
  refine ⟨_, run_bringUp boot w h, rfl, fun r => ?_, rfl, rfl, fun k => ?_, rfl, rfl, rfl, rfl, rfl, fun x y => ?_,
    rfl, rfl, rfl, read_launchMemory boot h⟩
  · simp [State.reg, State.reset]
  · simp [State.reset]
  · simp [State.cell, State.reset]

/-- Settles O17: with the recommended boot image and no image, memory lists nothing, as at reset. -/
theorem resetIsBringUpWithTheEmptyImage : Obligations.ResetIsBringUpWithTheEmptyImage := by
  unfold Obligations.ResetIsBringUpWithTheEmptyImage
  rw [run_bringUp _ _ (by simp), launchMemory_recommended]
  rfl

end Sys2Proof.Machine
end

section
/-! SUPPORT. What one instruction can write, said once for every instruction, and the stack's limits. -/

namespace Sys2Proof.Machine

/-- The items that an instruction `i` may have written, taking `s` to `t`: one group of items for each
instruction (R21, R25, R30, R31). The fault record may differ wherever an instruction can raise. -/
inductive Footprint (i : Instr) (s t : State) : Prop where
  /-- SYS, the jumps, CALL, RET and the skips: `pc` and the stack -/
  | control (ht : t = { s with pc := t.pc, stack := t.stack, sp := t.sp, fault := t.fault })
  /-- register loads, arithmetic and logic, RND, LD Vx from memory, and the display: registers and framebuffer;
  `V[15]` only by a flag writer or through the field `x` -/
  | registers (ht : t = { s with v := t.v, fb := t.fb, draws := t.draws, fault := t.fault })
      (hflag : writesFlag i = true ∨ namesFlag i = true ∨ t.reg 15 = s.reg 15)
  /-- LD B and LD [I]: memory -/
  | memory (ht : t = { s with mem := t.mem, fault := t.fault })
  /-- LD I, LD F and ADD I: `I` -/
  | index (hi : writesIndex i = true) (ht : t = { s with i := t.i })
  /-- LD DT, Vx -/
  | delay (x : Reg) (hi : i = .ldDtVx x) (ht : t = s.setDt (s.reg x))
  /-- LD ST, Vx -/
  | sound (x : Reg) (hi : i = .ldStVx x) (ht : t = s.setSt (s.reg x))
  /-- LD Vx, K -/
  | wait (x : Reg) (hi : i = .ldVxK x) (ht : t = s.setStatus (.waitingKeypress x))

theorem footprint_skipIf {i : Instr} {s : State} (p : Bool) : Footprint i s (s.skipIf p) := by
  rw [skipIf_eq]
  exact .control rfl

theorem footprint_skipOnKey {i : Instr} {s : State} (x : Reg) (down : Bool) :
    Footprint i s (s.skipOnKey x down) := by
  rcases Nat.lt_or_ge 15 (s.reg x).toNat with hx | hx
  · rw [skipOnKey_raise hx]; exact .control rfl
  · rw [skipOnKey_ok hx]; exact footprint_skipIf _

/-- A write of register `x`, the instruction's field, after any number of draws. -/
theorem footprint_setReg {i : Instr} {s : State} {x : Reg} (hx : namesFlag i = (x == 15)) (n : Nat) (b : Byte) :
    Footprint i s ({ s with draws := n }.setReg x b) := by
  refine .registers rfl (.inr ?_)
  by_cases h : x = 15
  · exact .inl (by simp [hx, h])
  · exact .inr ((State.reg_setReg ..).trans (if_neg (Ne.symm h)))

/-- The loads of registers 0 to `n - 1` leave every register from `n` up (R166). -/
theorem loadLoop_reg {n : Nat} {s : State} {q : Reg} (hn : n ≤ q.val) :
    (forUpTo loadReg n s).final.reg q = s.reg q :=
  forUpTo_final (P := fun t => t.reg q = s.reg q) rfl fun k w hk hw => by
    unfold loadReg
    split
    · exact hw
    · have hne : q ≠ regNo k := by
        rintro rfl
        rw [regNo_val (by omega)] at hn
        omega
      simpa [Flow.final, hne] using hw

/-- LD Vx, [I] leaves `V[15]` unless its field `x` is 15. -/
theorem footprint_loadRegs {s : State} (x : Reg) :
    Footprint (.loadRegs x) s (forUpTo loadReg (x.val + 1) s).final := by
  refine .registers (by rw [loadLoop_frame]) (.inr ?_)
  by_cases h : x = 15
  · exact .inl (by simp [namesFlag, h])
  · exact .inr (loadLoop_reg (lt_of_le_of_ne (Fin.le_last x) h))

/-- Every instruction keeps to its group of items. -/
theorem exec_footprint {i : Instr} {s t : State} (h : exec i s = .next t) : Footprint i s t := by
  cases i with
  | call nnn =>
    by_cases hs : s.sp.val < 16
    · rw [execCall_next nnn hs] at h; cases h; exact .control rfl
    · rw [execCall_full nnn hs] at h; cases h; exact .control rfl
  | ret =>
    by_cases hs : 0 < s.sp.val
    · rw [execRet_next hs] at h; cases h; exact .control rfl
    · rw [execRet_empty hs] at h; cases h; exact .control rfl
  | sys | jp | jpV0 => cases h; exact .control rfl
  | seImm | sneImm | seReg | sneReg => cases h; exact footprint_skipIf _
  | skp | sknp => cases h; exact footprint_skipOnKey _ _
  | ldImm | addImm | ldReg | orReg | andReg | xorReg | ldVxDt => cases h; exact footprint_setReg rfl s.draws _
  | rnd => cases h; exact footprint_setReg rfl (s.draws + 1) _
  | addReg | subReg | subnReg | shr | shl => cases h; exact .registers rfl (.inl rfl)
  | drw x y n =>
    obtain ⟨t', ht', hf⟩ := execDrw_frame x y n s
    rw [ht'] at h; cases h
    exact .registers (by rw [hf]) (.inl rfl)
  | cls => cases h; exact .registers rfl (.inr (.inr rfl))
  | loadRegs x => cases h; exact footprint_loadRegs x
  | ldBVx x =>
    cases h
    exact .memory (storeLoop_frame (body := storeDigit (s.reg x)) fun _ _ => ⟨_, _, rfl⟩)
  | storeRegs => cases h; exact .memory (storeLoop_frame (body := storeReg) fun _ _ => ⟨_, _, rfl⟩)
  | ldI | ldFVx | addIVx => cases h; exact .index rfl rfl
  | ldDtVx x => cases h; exact .delay x rfl rfl
  | ldStVx x => cases h; exact .sound x rfl rfl
  | ldVxK x => cases h; exact .wait x rfl rfl

/-- Settles O57: only the group of register writers can write `V[15]`, and it says by which instructions. -/
theorem onlyFlagWritersTouchTheFlag : Obligations.OnlyFlagWritersTouchTheFlag := by
  intro i s t h _ hw hn
  cases exec_footprint h with
  | registers _ hflag => simpa [hw, hn] using hflag
  | control ht | memory ht | index _ ht | delay _ _ ht | sound _ _ ht | wait _ _ ht =>
    exact (congrArg (State.reg · 15) ht :)

/-- Settles O58: only the group of index writers can write `I`. -/
theorem onlyIndexWritersTouchTheIndex : Obligations.OnlyIndexWritersTouchTheIndex := by
  intro i s t h _ hw
  cases exec_footprint h with
  | index hi _ => simp [hw] at hi
  | control ht | registers ht _ | memory ht | delay _ _ ht | sound _ _ ht | wait _ _ ht =>
    exact (congrArg State.i ht :)

/-- Settles O59: no group holds the keys, the lock or the construction, and `DT`, `ST` and the status have one
instruction each. -/
theorem controlStateHasFewWriters : Obligations.ControlStateHasFewWriters := by
  intro i s t h _
  cases exec_footprint h with
  | control ht | registers ht _ | memory ht | index _ ht =>
    rw [ht]
    exact ⟨rfl, rfl, rfl, rfl, absurd rfl, absurd rfl, absurd rfl⟩
  | delay x hi ht =>
    rw [ht]
    exact ⟨rfl, rfl, rfl, rfl, fun _ => ⟨x, hi⟩, absurd rfl, absurd rfl⟩
  | sound x hi ht =>
    rw [ht]
    exact ⟨rfl, rfl, rfl, rfl, absurd rfl, fun _ => ⟨x, hi⟩, absurd rfl⟩
  | wait x hi ht =>
    rw [ht]
    exact ⟨rfl, rfl, rfl, rfl, absurd rfl, absurd rfl, fun _ => ⟨x, hi, rfl⟩⟩

/-- A raise in a state without a fatal condition writes the fault record alone (R230). -/
theorem raise_of_none {s : State} {c : Fault} (h : s.fault = none) : s.raise c = { s with fault := some c } := by
  simp [State.raise, h]

/-- Settles O27: a full stack refuses the push and an empty one the pop, and the raise writes nothing else. -/
theorem stackLimitsAreFatal : Obligations.StackLimitsAreFatal := by
  intro nnn s hf
  constructor
  · intro hsp
    rw [execCall_full nnn (by omega), raise_of_none hf]
  · intro hsp
    rw [execRet_empty (by omega), raise_of_none hf]

end Sys2Proof.Machine
end

section
/-! SUPPORT. Memory as the lock routes it: byte and word accesses, fetches past the end, the image load, and the
regions that a locked machine keeps (R66 to R72, R75, R82, R134). -/

namespace Sys2Proof.Machine

/-! ## The write lock (R67, R68) -/

/-- Where a write takes effect: anywhere while unlocked, below 0x200 by the parameter, and in the working region. -/
theorem writable_iff {s : State} {a : Nat} :
    s.writable a = true ↔ s.locked = false ∨ (a < 0x200 ∧ s.bootWritable = true) ∨ 0x600 ≤ a := by
  unfold State.writable
  cases s.locked
  · simp
  · by_cases hboot : a < 0x200
    · simp [hboot, show ¬ 0x600 ≤ a by omega]
    · by_cases hprog : a < 0x600
      · simp [hboot, hprog]
      · simp [hboot, hprog]; omega

theorem writable_program {s : State} (hl : s.locked = true) {a : Nat} (h : 0x200 ≤ a) (h' : a < 0x600) :
    s.writable a = false := by
  rw [Bool.eq_false_iff, Ne, writable_iff]
  rintro (hu | ⟨hb, -⟩ | hw)
  · simp [hl] at hu
  · omega
  · omega

theorem writable_hardenedBoot {s : State} (hl : s.locked = true) (hb : s.bootWritable = false) {a : Nat}
    (h : a < 0x200) : s.writable a = false := by
  rw [Bool.eq_false_iff, Ne, writable_iff]
  rintro (hu | ⟨-, hp⟩ | hw)
  · simp [hl] at hu
  · simp [hb] at hp
  · omega

/-! ## What a cycle keeps of a locked machine (R68, R82, R276) -/

/-- The lock and the boot parameter are as before, and so is every byte that the lock protects. -/
def KeepsProtected (s t : State) : Prop :=
  t.locked = s.locked ∧ t.bootWritable = s.bootWritable ∧
    ∀ a, s.writable a = false → t.mem.read a = s.mem.read a

theorem skipOnKey_mem (s : State) (x : Reg) (down : Bool) : (s.skipOnKey x down).mem = s.mem := by
  rcases Nat.lt_or_ge 15 (s.reg x).toNat with hx | hx
  · rw [skipOnKey_raise hx]; rfl
  · rw [skipOnKey_ok hx, skipIf_eq]; rfl

/-- An instruction leaves memory alone or is a loop of byte writes (R63: LD B and LD [I] are the only writers). -/
theorem exec_mem_cases {i : Instr} {s t : State} (h : exec i s = .next t) :
    t.mem = s.mem ∨
      ∃ body n, (∀ k u, ∃ a b, body k u = State.memWrite u a b) ∧ t = (forUpTo body n s).final := by
  cases i with
  | ldBVx x => cases h; exact .inr ⟨storeDigit (s.reg x), 3, fun _ _ => ⟨_, _, rfl⟩, rfl⟩
  | storeRegs x => cases h; exact .inr ⟨storeReg, x.val + 1, fun _ _ => ⟨_, _, rfl⟩, rfl⟩
  | loadRegs x => cases h; exact .inl (by rw [loadLoop_frame])
  | drw x y n =>
    obtain ⟨t', ht', hf⟩ := execDrw_frame x y n s
    rw [ht'] at h; cases h
    exact .inl (by rw [hf])
  | call nnn =>
    by_cases hs : s.sp.val < 16
    · rw [execCall_next nnn hs] at h; cases h; exact .inl rfl
    · rw [execCall_full nnn hs] at h; cases h; exact .inl rfl
  | ret =>
    by_cases hs : 0 < s.sp.val
    · rw [execRet_next hs] at h; cases h; exact .inl rfl
    · rw [execRet_empty hs] at h; cases h; exact .inl rfl
  | seImm | sneImm | seReg | sneReg => cases h; exact .inl (by rw [skipIf_eq]; rfl)
  | skp | sknp => cases h; exact .inl (skipOnKey_mem ..)
  | _ => cases h; exact .inl rfl

/-- No instruction has the lock or the boot parameter in its footprint, and its byte writes go through the lock. -/
theorem exec_keepsProtected {i : Instr} {s t : State} (hm : s.mem.wf = true) (h : exec i s = .next t) :
    KeepsProtected s t := by
  obtain ⟨hlock, hboot⟩ : t.locked = s.locked ∧ t.bootWritable = s.bootWritable := by
    cases exec_footprint h with
    | control ht | registers ht _ | memory ht | index _ ht | delay _ _ ht | sound _ _ ht | wait _ _ ht =>
      rw [ht]; exact ⟨rfl, rfl⟩
  refine ⟨hlock, hboot, fun a ha => ?_⟩
  rcases exec_mem_cases h with ht | ⟨body, n, hb, rfl⟩
  · rw [ht]
  · exact storeLoop_locked hb hm ha

/-- A guard, a fatal fetch and a fatal decode leave memory, lock and parameter alone; the rest is an instruction. -/
theorem step_keepsProtected {s t : State} (hm : s.mem.wf = true) (h : step s = .next t) : KeepsProtected s t := by
  rcases step_cases h with rfl | ⟨-, -, -, ⟨c, -, rfl⟩ | ⟨op, -, -, rfl⟩ | ⟨op, i, -, -, hx⟩⟩
  · exact ⟨rfl, rfl, fun _ _ => rfl⟩
  · exact ⟨rfl, rfl, fun _ _ => rfl⟩
  · exact ⟨rfl, rfl, fun _ _ => rfl⟩
  · exact exec_keepsProtected (s := s.setPc (s.pc + 2#16)) hm hx

/-- Settles O56: a cycle keeps every protected byte, and on a locked machine those are the program region and, by
the parameter, the boot region. It holds of cycles that end in a fatal condition too. -/
theorem lockedRegionsAreReadOnly : Obligations.LockedRegionsAreReadOnly := by
  intro s t hm hl h _
  obtain ⟨hlock, hboot, hbytes⟩ := step_keepsProtected hm h
  exact ⟨hlock.trans hl, hboot, fun a ha ha' => hbytes a (writable_program hl ha ha'),
    fun hb a ha => hbytes a (writable_hardenedBoot hl hb ha)⟩

/-! ## Fetches past the end (R134) -/

/-- A fetch that fails ends the cycle with its cause, before `pc` is advanced. -/
theorem fetchAndExecute_error {s : State} {c : Fault} (h : s.memReadWord s.pc.toNat = .error c) :
    fetchAndExecute s = .next (s.raise c) := by
  simp only [fetchAndExecute, h]

/-- Settles O8, by the word read at `pc`, whose first missing byte is at `max pc 0x1000`. -/
theorem fetchPastTheEndIsFatal : Obligations.FetchPastTheEndIsFatal := by
  intro s hf hc hr hpc
  refine ⟨_, ?_, State.raise_fault_of_none s _ hf, rfl⟩
  rw [step_running hf hc hr, fetchAndExecute_error (memReadWord_error (by omega))]

/-! ## Byte and word accesses (R66, R67, R70 to R72) -/

/-- Settles O11: a byte read looks at memory alone, so the lock makes no difference. -/
theorem byteReadReturnsTheByteOrIsFatal : Obligations.ByteReadReturnsTheByteOrIsFatal :=
  fun _ _ _ => ⟨memRead_error, memRead_ok⟩

/-- Settles O12, from what a byte write below 4096 answers and where the lock lets it take effect. -/
theorem byteWriteObeysTheLock : Obligations.ByteWriteObeysTheLock := by
  intro s a b hm
  refine ⟨fun ha => ⟨_, memWrite_go b ha, rfl, wf_memWrite b ha hm, fun c => ?_⟩,
    fun ha => ⟨_, memWrite_halted b ha, State.raise_fault_of_none s _⟩⟩
  rw [State.setMem_mem, read_memWrite b c hm]
  simp only [writable_iff]

/-- Settles O13, from the two outcomes of a word read. -/
theorem wordReadIsBigEndian : Obligations.WordReadIsBigEndian := by
  intro s a
  refine ⟨fun h => ⟨_, memReadWord_ok h, wordOfBytes_toNat _ _⟩, ?_, fun h => ?_⟩
  · rintro rfl
    exact memReadWord_error (by decide)
  · rw [memReadWord_error (by omega), Nat.max_eq_left h]

theorem hiByte_toNat (w : Word) : (hiByte w).toNat = w.toNat / 256 := by
  simp only [hiByte, BitVec.extractLsb'_toNat, Nat.shiftRight_eq_div_pow]; omega

theorem loByte_toNat (w : Word) : (loByte w).toNat = w.toNat % 256 := by
  simp only [loByte, BitVec.extractLsb'_toNat, Nat.shiftRight_eq_div_pow]; omega

/-- A word write whose first byte is in memory: the byte write of the high byte, then that of the low byte. -/
theorem memWriteWord_of_lt {s : State} {a : Nat} (w : Word) (h : a < 4096) :
    s.memWriteWord a w =
      (s.setMem (if s.writable a then s.mem.write a (hiByte w) else s.mem)).memWrite (a + 1) (loByte w) := by
  rw [State.memWriteWord, memWrite_go _ h, Flow.andThen]

theorem memWriteWord_halted {s : State} {a : Nat} (w : Word) (h : 4096 ≤ a) :
    s.memWriteWord a w = .halted (s.raise (.addressOutOfRange a)) := by
  rw [State.memWriteWord, memWrite_halted _ h, Flow.andThen]

/-- Settles O14: each of the two byte writes is routed on its own; at 0xFFF, which every lock state lets be
written, the second one raises, and above it the first. -/
theorem wordWriteRoutesEachByte : Obligations.WordWriteRoutesEachByte := by
  intro s a w hm
  refine ⟨fun h => ?_, ?_, fun h => ⟨_, memWriteWord_halted w h, rfl, fun _ => rfl,
    State.raise_fault_of_none s _⟩⟩
  · have ha : a < 4096 := by omega
    refine ⟨_, (memWriteWord_of_lt w ha).trans (memWrite_go _ h), rfl, fun c => ?_⟩
    rw [State.setMem_mem, State.setMem_mem, read_memWrite _ c (wf_memWrite _ ha hm), read_memWrite _ c hm]
    rcases eq_or_ne c a with rfl | hc
    · simp [apply_ite BitVec.toNat, hiByte_toNat]
    · simp [hc, apply_ite BitVec.toNat, loByte_toNat]
  · rintro rfl
    have hw : s.writable 4095 = true := writable_iff.mpr (.inr (.inr (by decide)))
    refine ⟨_, (memWriteWord_of_lt w (by decide)).trans (memWrite_halted _ (by decide)), rfl,
      fun hf => State.raise_fault_of_none _ _ hf, fun c => ?_⟩
    simp only [State.raise_mem, State.setMem_mem, hw, if_true, Memory.read_write _ c _ hm, apply_ite BitVec.toNat,
      hiByte_toNat]

/-! ## The image load (R75) -/

/-- An image load where it is defined: fatal past 0xFFF, and otherwise a copy that engages the lock. -/
theorem act_loadImage {s : State} {bytes : List Byte} (hf : s.fault = none) (hl : s.locked = false)
    (hc : s.cpuPresent = false) :
    act (.loadImage bytes) s =
      if 3584 < bytes.length then .next (s.raise (.addressOutOfRange 0x1000))
      else .next { s with mem := s.mem.poke 0x200 bytes, locked := true } := by
  simp [act, hf, State.loadImage, hl, hc]

/-- Settles O15: an image of at most 3584 bytes ends at 0xFFF, so its copy stays in the address space. -/
theorem imageLoadCopiesAndLocks : Obligations.ImageLoadCopiesAndLocks := by
  intro s bytes hm hf hl hc
  constructor
  · intro h
    have hfit : 0x200 + bytes.length ≤ memSize := by simp only [memSize]; omega
    exact ⟨_, (act_loadImage hf hl hc).trans (if_neg (by omega)), rfl, Memory.wf_poke hfit hm,
      fun a => Memory.read_poke a hfit hm⟩
  · intro h
    exact ⟨_, (act_loadImage hf hl hc).trans (if_pos h), State.raise_fault_of_none s _ hf⟩

/-! ## The framebuffer cell (R77) -/

/-- Settles O19, from what one draw does to every cell. -/
theorem fbDrawXorsAndReports : Obligations.FbDrawXorsAndReports := by
  intro s x y bit
  refine ⟨beq_eq_decide .., fbDraw_frame s x y bit, ?_, fun cx cy hne => ?_⟩
  · simp [cell_fbDraw]
  · simp [cell_fbDraw, hne]

/-! ## Host reads (R69, R252, R253) -/

/-- A host operation that changes nothing while no fatal condition is recorded never changes anything: once one is
recorded, no operation does (R133). -/
theorem act_self_of_none {m : Move} {s : State} (h : s.fault = none → act m s = .next s) : act m s = .next s := by
  cases hf : s.fault with
  | none => exact h hf
  | some c => simp only [act, hf]

/-- Settles O52: the four reads pass the fault guard and answer the state they find. -/
theorem hostReadsReturnTheirSlots : Obligations.HostReadsReturnTheirSlots := by
  intro s a
  refine ⟨⟨act_self_of_none fun hf => ?_, rfl⟩, ⟨act_self_of_none fun hf => ?_, rfl⟩,
    fun ha => ⟨act_self_of_none fun hf => ?_, congrArg Answer.byte (memRead_ok ha)⟩, fun hc => ?_⟩
  · simp only [act, hf]
  · simp only [act, hf]
  · simp only [act, hf]
  · have honCpu : s.onCpu s = .next s := if_pos hc
    refine ⟨act_self_of_none fun hf => ?_, rfl, act_self_of_none fun hf => ?_, rfl⟩
    · simp only [act, hf, honCpu]
    · simp only [act, hf, honCpu]

end Sys2Proof.Machine
end

section
/-! SUPPORT. The decoder and the encoder: each undoes the other (R104, R105), and which opcodes do not decode (R106). -/

namespace Sys2Proof

/-! ## Decoding what was encoded (R104, R105) -/

/-- Decoding the opcode of a well-formed instruction gives the instruction back: its row's fixed nibbles select the
row, and its operands stand in the fields that the row reads (R104, R105). -/
theorem decodeOp_encodeOp {i : Instr} (h : i.wellFormed = true) : decodeOp (encodeOp i) = some i := by
  cases i with
  | cls | ret => rfl
  | sys nnn =>
    obtain ⟨hcls, hret⟩ : nnn ≠ 0x0E0#12 ∧ nnn ≠ 0x0EE#12 := by simpa [Instr.wellFormed] using h
    simp [encodeOp, decodeOp, decodeGroup0, hcls, hret]
  | jp | call | ldI | jpV0 | seImm | sneImm | ldImm | addImm | rnd | seReg | sneReg => simp [encodeOp, decodeOp]
  | drw => simp [encodeOp, decodeOp, opN]
  | ldReg | orReg | andReg | xorReg | addReg | subReg | shr | subnReg | shl =>
    simp [encodeOp, decodeOp, decodeGroup8]
  | skp | sknp => simp [encodeOp, decodeOp, decodeGroupE]
  | ldVxDt | ldVxK | ldDtVx | ldStVx | addIVx | ldFVx | ldBVx | storeRegs | loadRegs =>
    simp [encodeOp, decodeOp, decodeGroupF]

/-- Settles O1, from the round trip of the opcode and of its two bytes. -/
theorem decodeOfEncodeIsTheInstruction : Obligations.DecodeOfEncodeIsTheInstruction := by
  intro i rest h
  rw [encode, decode_opBytes, decodeOp_encodeOp h]

/-! ## The fields of an opcode (R101, R102) -/

section
variable (op : Word)

theorem opN3_toNat : (opN3 op).toNat = op.toNat / 4096 := by
  simp only [opN3, BitVec.extractLsb'_toNat, Nat.shiftRight_eq_div_pow]; omega

theorem opX_val : (opX op).val = op.toNat / 256 % 16 := by
  change (opN2 op).toNat = _
  simp only [opN2, BitVec.extractLsb'_toNat, Nat.shiftRight_eq_div_pow]

theorem opY_val : (opY op).val = op.toNat / 16 % 16 := by
  change (opN1 op).toNat = _
  simp only [opN1, BitVec.extractLsb'_toNat, Nat.shiftRight_eq_div_pow]

theorem opN0_toNat : (opN0 op).toNat = op.toNat % 16 := by
  simp only [opN0, BitVec.extractLsb'_toNat, Nat.shiftRight_eq_div_pow]; omega

theorem opKK_toNat : (opKK op).toNat = op.toNat % 256 := by
  simp only [opKK, BitVec.extractLsb'_toNat, Nat.shiftRight_eq_div_pow]; omega

theorem opNNN_toNat : (opNNN op).toNat = op.toNat % 4096 := by
  simp only [opNNN, BitVec.extractLsb'_toNat, Nat.shiftRight_eq_div_pow]; omega

/-- The sprite height is the nibble `n`. -/
theorem opN0_eq_ofNat_opN : opN0 op = BitVec.ofNat 4 (opN op).val := by
  simp [opN]

end

section
variable {op : Word} {n3 n0 : Nibble}

/-- No bit of an opcode is outside the fields of format NNN. -/
theorem fmtNNN_fields (h3 : opN3 op = n3) : fmtNNN n3 (opNNN op) = op := by
  apply BitVec.eq_of_toNat_eq
  rw [fmtNNN_toNat, ← h3, opN3_toNat, opNNN_toNat]; omega

/-- No bit of an opcode is outside the fields of format XKK. -/
theorem fmtXKK_fields (h3 : opN3 op = n3) : fmtXKK n3 (opX op) (opKK op) = op := by
  apply BitVec.eq_of_toNat_eq
  rw [fmtXKK_toNat, ← h3, opN3_toNat, opX_val, opKK_toNat]; omega

/-- No bit of an opcode is outside the fields of format XYN. -/
theorem fmtXYN_fields (h3 : opN3 op = n3) (h0 : opN0 op = n0) : fmtXYN n3 (opX op) (opY op) n0 = op := by
  apply BitVec.eq_of_toNat_eq
  rw [fmtXYN_toNat, ← h3, ← h0, opN3_toNat, opX_val, opY_val, opN0_toNat]; omega

end

/-! ## Encoding what was decoded (R104, R105) -/

/-- `i` is an instruction of the machine, and `op` is its opcode. -/
def Encodes (op : Word) (i : Instr) : Prop := i.wellFormed = true ∧ encodeOp i = op

theorem decodeGroup0_encodes (nnn : Addr) : Encodes (fmtNNN 0x0#4 nnn) (decodeGroup0 nnn) := by
  unfold decodeGroup0
  split
  · next h => subst h; exact ⟨rfl, rfl⟩
  split
  · next h => subst h; exact ⟨rfl, rfl⟩
  · next hcls hret => exact ⟨by simp [Instr.wellFormed, hcls, hret], rfl⟩

theorem decodeGroup8_encodes {x y : Reg} {n0 : Nibble} {i : Instr} (h : decodeGroup8 x y n0 = some i) :
    Encodes (fmtXYN 0x8#4 x y n0) i := by
  unfold decodeGroup8 at h
  split at h <;> cases h <;> exact ⟨rfl, rfl⟩

theorem decodeGroupE_encodes {x : Reg} {kk : Byte} {i : Instr} (h : decodeGroupE x kk = some i) :
    Encodes (fmtXKK 0xE#4 x kk) i := by
  unfold decodeGroupE at h
  split at h <;> cases h <;> exact ⟨rfl, rfl⟩

theorem decodeGroupF_encodes {x : Reg} {kk : Byte} {i : Instr} (h : decodeGroupF x kk = some i) :
    Encodes (fmtXKK 0xF#4 x kk) i := by
  unfold decodeGroupF at h
  split at h <;> cases h <;> exact ⟨rfl, rfl⟩

/-- What an opcode decodes to has it as its opcode: each arm of the decoder carries over every field that its row
leaves free, so that the opcode is the word of the row's format. -/
theorem decodeOp_encodes {op : Word} {i : Instr} (h : decodeOp op = some i) : Encodes op i := by
  unfold decodeOp at h
  split at h
  case h_1 h3 => cases h; simpa only [fmtNNN_fields h3] using decodeGroup0_encodes (opNNN op)
  -- format NNN: JP, CALL, LD I, JP V0
  case h_2 h3 | h_3 h3 | h_11 h3 | h_12 h3 => cases h; exact ⟨rfl, fmtNNN_fields h3⟩
  -- format XKK: SE, SNE, LD and ADD with a byte, RND
  case h_4 h3 | h_5 h3 | h_7 h3 | h_8 h3 | h_13 h3 => cases h; exact ⟨rfl, fmtXKK_fields h3⟩
  -- format XY: SE and SNE with a register, where `n` is 0
  case h_6 h3 | h_10 h3 =>
    split at h <;> cases h
    exact ⟨rfl, fmtXYN_fields h3 ‹_›⟩
  -- DRW
  case h_14 h3 => cases h; exact ⟨rfl, fmtXYN_fields h3 (opN0_eq_ofNat_opN op)⟩
  -- the groups with a minor opcode
  case h_9 h3 => exact fmtXYN_fields h3 rfl ▸ decodeGroup8_encodes h
  case h_15 h3 => exact fmtXKK_fields h3 ▸ decodeGroupE_encodes h
  case h_16 =>
    have h3 : opN3 op = 0xF#4 := by simp only [imp_false] at *; bv_omega
    exact fmtXKK_fields h3 ▸ decodeGroupF_encodes h

/-- Settles O2, arm by arm of the decoder. -/
theorem encodeOfDecodeIsTheOpcode : Obligations.EncodeOfDecodeIsTheOpcode :=
  fun _ _ => decodeOp_encodes

/-! ## The opcodes that do not decode (R106) -/

theorem decodeGroup8_eq_none_iff {x y : Reg} {n0 : Nibble} : decodeGroup8 x y n0 = none ↔
    n0 = 0x8#4 ∨ n0 = 0x9#4 ∨ n0 = 0xA#4 ∨ n0 = 0xB#4 ∨ n0 = 0xC#4 ∨ n0 = 0xD#4 ∨ n0 = 0xF#4 := by
  unfold decodeGroup8
  split
  case h_10 => simp only [true_iff, imp_false] at *; bv_omega
  all_goals simp

theorem decodeGroupE_eq_none_iff {x : Reg} {kk : Byte} :
    decodeGroupE x kk = none ↔ kk ≠ 0x9E#8 ∧ kk ≠ 0xA1#8 := by
  unfold decodeGroupE
  split <;> simp_all

theorem decodeGroupF_eq_none_iff {x : Reg} {kk : Byte} : decodeGroupF x kk = none ↔
    kk ≠ 0x07#8 ∧ kk ≠ 0x0A#8 ∧ kk ≠ 0x15#8 ∧ kk ≠ 0x18#8 ∧ kk ≠ 0x1E#8 ∧ kk ≠ 0x29#8 ∧ kk ≠ 0x33#8 ∧
      kk ≠ 0x55#8 ∧ kk ≠ 0x65#8 := by
  unfold decodeGroupF
  split <;> simp_all

/-- Only five major opcodes have an undecodable opcode; SE and SNE with a register want their `n` to be 0 (D3). -/
theorem decodeOp_eq_none_iff {op : Word} : decodeOp op = none ↔
    (opN3 op = 0x5#4 ∧ opN0 op ≠ 0x0#4) ∨
    (opN3 op = 0x8#4 ∧ decodeGroup8 (opX op) (opY op) (opN0 op) = none) ∨
    (opN3 op = 0x9#4 ∧ opN0 op ≠ 0x0#4) ∨
    (opN3 op = 0xE#4 ∧ decodeGroupE (opX op) (opKK op) = none) ∨
    (opN3 op = 0xF#4 ∧ decodeGroupF (opX op) (opKK op) = none) := by
  unfold decodeOp
  split
  case h_16 =>
    have h3 : opN3 op = 0xF#4 := by simp only [imp_false] at *; bv_omega
    simp [h3]
  all_goals simp [*]

/-- Settles O3: the undecodable opcodes of each major opcode, as numbers. -/
theorem undecodedOpcodesAreTheIllegalGroups : Obligations.UndecodedOpcodesAreTheIllegalGroups := by
  intro op
  simp [decodeOp_eq_none_iff, decodeGroup8_eq_none_iff, decodeGroupE_eq_none_iff, decodeGroupF_eq_none_iff,
    BitVec.toNat_eq, opN3_toNat, opN0_toNat, opKK_toNat]

/-- Settles O4: the decoder runs on the eight opcodes. -/
theorem printedOpcodesDecode : Obligations.PrintedOpcodesDecode := by
  unfold Obligations.PrintedOpcodesDecode
  decide

end Sys2Proof
end

section
/-! SUPPORT. Every instruction answers a next state (R109), and which ones may raise. -/

namespace Sys2Proof.Machine

/-- Settles O60: no arm of `exec` answers a fault or a refusal, and outside the nine kinds that may raise, an
instruction is a skip or writes named items other than the record. -/
theorem everyInstructionAnswersANextState : Obligations.EveryInstructionAnswersANextState := by
  intro i s
  cases i with
  | ret | sys | call | drw | skp | sknp | ldBVx | storeRegs | loadRegs => exact ⟨_, rfl, nofun⟩
  | seImm | sneImm | seReg | sneReg => exact ⟨_, rfl, fun _ => by rw [skipIf_eq, State.setPc_fault]⟩
  | cls | jp | jpV0 | ldImm | addImm | ldReg | orReg | andReg | xorReg | addReg | subReg | shr | subnReg | shl | ldI
  | rnd | ldVxDt | ldVxK | ldDtVx | ldStVx | addIVx | ldFVx => exact ⟨_, rfl, fun _ => rfl⟩

end Sys2Proof.Machine
end

section
/-! SUPPORT. The guards of a cycle and its success path: a fatal condition and a key wait stop everything, and
otherwise the opcode at `pc`, also a placed one, is executed with `pc` advanced (R130 to R133). -/

namespace Sys2Proof.Machine

/-! ## The guards (R132, R133) -/

theorem step_faulted {s : State} {c : Fault} (hf : s.fault = some c) : step s = .next s := by
  simp only [step, cycle, hf]

theorem act_faulted {s : State} {c : Fault} (m : Move) (hf : s.fault = some c) : act m s = .next s :=
  act_self_of_none (by simp [hf])

/-- Settles O7: the fault guard stands first in a cycle and in every host operation. -/
theorem faultedMachineNeverChanges : Obligations.FaultedMachineNeverChanges :=
  fun _ _ m hf => ⟨step_faulted hf, act_faulted m hf⟩

theorem step_waiting {s : State} {r : Reg} (hf : s.fault = none) (hc : s.cpuPresent = true)
    (hw : s.status = .waitingKeypress r) : step s = .next s := by
  simp only [step, cycle, hf, hc, hw, if_true]

/-- A key press that ends a wait: the register and then the status, nothing else (R250). -/
theorem act_keyPress_waiting {s : State} {r : Reg} (k : Fin 16) (hf : s.fault = none) (hc : s.cpuPresent = true)
    (hw : s.status = .waitingKeypress r) :
    act (.keyPress k) s = .next ((s.setReg r (BitVec.ofNat 8 k.val)).setStatus .running) := by
  simp only [act, hf, State.onCpu, hc, if_true, State.keyPress, hw]

/-- Of the host operations on a constructed machine, only a cycle and a key press can change the status. -/
theorem act_status_cases {m : Move} {s t : State} (hc : s.cpuPresent = true) (h : act m s = .next t) :
    t.status = s.status ∨ (m = .cycle ∧ step s = .next t) ∨ ∃ k, m = .keyPress k := by
  rcases act_cases h with rfl | ⟨-, hload | hcpu | hcycle | hkeys | hpress | htick⟩
  · exact .inl rfl
  · obtain ⟨_, -, -, hnone, -⟩ := hload
    simp [hc] at hnone
  · obtain ⟨-, hnone, -⟩ := hcpu
    simp [hc] at hnone
  · exact .inr (.inl hcycle)
  · obtain ⟨mask, -, -, rfl⟩ := hkeys
    exact .inl rfl
  · obtain ⟨k, -, hm, -⟩ := hpress
    exact .inr (.inr ⟨k, hm⟩)
  · obtain ⟨-, -, rfl⟩ := htick
    exact .inl rfl

/-- Settles O6: a cycle is stopped by the wait, so of the operations that can change the status only the key press
is left, and it writes a register and the status. -/
theorem waitingMachineOnlyLeavesByKeyPress : Obligations.WaitingMachineOnlyLeavesByKeyPress := by
  intro s r hw hf hc
  have hstep : step s = .next s := step_waiting hf hc hw
  refine ⟨hstep, fun m t h hne => ?_, fun k => ⟨_, act_keyPress_waiting k hf hc hw, rfl, rfl⟩⟩
  rcases act_status_cases hc h with hsame | ⟨-, hcycle⟩ | hpress
  · exact absurd hsame hne
  · rw [hstep] at hcycle
    cases hcycle
    exact absurd rfl hne
  · exact hpress

/-! ## The fetched instruction (R130, R131) -/

/-- A cycle whose fetch answers an opcode that decodes is that instruction's meaning on the advanced `pc`. -/
theorem step_decoded {s : State} {op : Word} {i : Instr} (hf : s.fault = none) (hc : s.cpuPresent = true)
    (hr : s.status = .running) (hop : s.memReadWord s.pc.toNat = .ok op) (hd : decodeOp op = some i) :
    step s = exec i { s with pc := s.pc + 2#16 } := by
  rw [step_running hf hc hr]
  simp only [fetchAndExecute, hop, hd]
  rfl

/-- Decoding a byte sequence that starts with two bytes is decoding the opcode they form. -/
theorem decode_eq_ok_iff {hi lo : Byte} {rest rest' : List Byte} {i : Instr} :
    decode (hi :: lo :: rest) = .ok (i, rest') ↔ decodeOp (wordOfBytes hi lo) = some i ∧ rest = rest' := by
  cases hd : decodeOp (wordOfBytes hi lo) with
  | none => simp [decode, hd]
  | some j => simp [decode, hd]

/-- Settles O5: the fetch answers the big-endian word of the two bytes at `pc`, and that word decodes. -/
theorem stepRunsTheDecodedInstruction : Obligations.StepRunsTheDecodedInstruction := by
  intro s i hf hc hr hpc hd
  exact step_decoded hf hc hr (memReadWord_ok hpc) (decode_eq_ok_iff.mp hd).1

/-! ## A placed opcode (log entry 7) -/

theorem fetchAddr_lt (s : State) : (fetchAddr s).toNat < 4095 := by
  unfold fetchAddr
  split
  · assumption
  · decide

/-- The next fetch reads the placed opcode: both its bytes are inside memory, high byte first (R72). -/
theorem memReadWord_placeOp {s : State} (op : Word) (hm : s.mem.wf = true) :
    (placeOp s op).memReadWord (placeOp s op).pc.toNat = .ok op := by
  have hlt : (fetchAddr s).toNat < 4095 := fetchAddr_lt s
  have hbytes (c : Nat) := Memory.read_poke (a := (fetchAddr s).toNat) (bytes := opBytes op) c
    (by simp only [opBytes, List.length_cons, List.length_nil, memSize]; omega) hm
  rw [memReadWord_ok (by simp only [placeOp]; omega)]
  simp only [placeOp, hbytes]
  simp [opBytes, wordOfBytes_hi_lo]

theorem decodeTableWord_eq (nbits w : Nat) : decodeTableWord nbits w = decodeOp (tableWord nbits w) := by
  have hbytes := decode_opBytes (tableWord nbits w) []
  rw [List.append_nil] at hbytes
  rw [decodeTableWord, hbytes]
  cases decodeOp (tableWord nbits w) <;> rfl

/-- Settles O10: placing opens the guards, and the next fetch reads the placed opcode. -/
theorem placedOpcodeRunsNext : Obligations.PlacedOpcodeRunsNext := by
  intro s w i hm hd
  rw [decodeTableWord_eq] at hd
  exact step_decoded rfl rfl rfl (memReadWord_placeOp _ hm) hd

end Sys2Proof.Machine
end

section
/-! SUPPORT. Control transfer: the jumps, the call stack, the skips on registers, and SYS (R140 to R151). -/

namespace Sys2Proof.Machine

/-! ## Jumps (R140, R141) -/

theorem onlyPc_setPc (s : State) (p : Word) : OnlyPc s (s.setPc p) := ⟨rfl, fun _ => rfl⟩

/-- The target of JP V0: a byte and a 12-bit address never reach 65536, so the sum is exact (D27). -/
theorem addWord_zextByte_zextAddr_toNat (b : Byte) (nnn : Addr) :
    (addWord (zextByte b) (zextAddr nnn)).toNat = b.toNat + nnn.toNat := by
  rw [addWord, BitVec.toNat_ofNat, zextByte_toNat, zextAddr_toNat]
  omega

/-- Settles O23: JP is one write of `pc`. -/
theorem jpSetsPcToTheAddress : Obligations.JpSetsPcToTheAddress :=
  fun nnn s => ⟨decodeOp_encodeOp (i := .jp nnn) rfl, _, rfl, zextAddr_toNat nnn, onlyPc_setPc s _⟩

/-- Settles O24: JP V0 is one write of `pc`, and 0xFF + 0xFFF is 0x10FE. -/
theorem jpV0SetsPcToTheSum : Obligations.JpV0SetsPcToTheSum := by
  intro nnn s
  have hsum := addWord_zextByte_zextAddr_toNat (s.reg 0) nnn
  have hmax : (addWord (zextByte (s.reg 0)) (zextAddr nnn)).toNat ≤ 0x10FE := by omega
  exact ⟨decodeOp_encodeOp (i := .jpV0 nnn) rfl, _, rfl, hsum, hmax, onlyPc_setPc s _⟩

/-! ## The call stack (R142, R143, R151) -/

/-- RET with its top word in slot `top`. -/
theorem execRet_top {s : State} {top : Fin 16} (h : s.sp.val = top.val + 1) :
    exec .ret s = .next { s with
      pc := s.stack[top], stack := s.stack.set top.val 0x0000#16, sp := top.castSucc } := by
  have hslot : s.sp.val - 1 = top.val := by omega
  simp only [execRet_next (s := s) (by omega), hslot]
  rfl

/-- Settles O25: the push writes the slot at `sp`, and the jump then writes `pc` alone. -/
theorem callPushesTheReturnAddress : Obligations.CallPushesTheReturnAddress := by
  refine fun nnn s => ⟨decodeOp_encodeOp (i := .call nnn) rfl, fun hsp => ?_⟩
  refine ⟨_, execCall_next nnn hsp, zextAddr_toNat nnn, rfl, fun k => ?_, rfl, fun _ => rfl⟩
  simp [Vector.getElem_set, eq_comm]

/-- Settles O26: the pop reads the slot below `sp` and clears it. -/
theorem retPopsThePc : Obligations.RetPopsThePc := by
  refine ⟨decodeOp_encodeOp (i := .ret) rfl, fun s top hsp => ?_⟩
  refine ⟨_, execRet_top hsp, rfl, rfl, fun k => ?_, rfl, fun _ => rfl⟩
  simp [Vector.getElem_set, Fin.ext_iff, eq_comm]

/-- Settles O28: RET reads back the `pc` that CALL pushed, and clears a slot that was clear before. -/
theorem retUndoesCall : Obligations.RetUndoesCall := by
  intro nnn s k hsp hclear
  refine ⟨_, execCall_next nnn (by omega), ?_⟩
  rw [execRet_top (top := k) (by simp [hsp])]
  have hpc : (s.stack.set s.sp.val s.pc (by omega))[k] = s.pc := by simp [hsp]
  have hstack : (s.stack.set s.sp.val s.pc (by omega)).set k.val 0x0000#16 = s.stack := by
    rw [← hclear]; simp [hsp]
  have hsp' : k.castSucc = s.sp := Fin.ext hsp.symm
  simp only [State.setPc, hpc, hstack, hsp']

/-! ## Skips on registers (R144 to R147, R150) -/

/-- An instruction that is a skip on `p` moves `pc`, and `pc` alone, exactly when `p` holds. -/
theorem exec_skipIf {i : Instr} {s : State} {p : Bool} {q : Prop} [Decidable q]
    (h : exec i s = .next (s.skipIf p)) (hq : p = true ↔ q) :
    ∃ t, exec i s = .next t ∧ OnlyPc s t ∧
      t.pc.toNat = if q then (s.pc.toNat + 2) % 65536 else s.pc.toNat := by
  rw [skipIf_eq] at h
  refine ⟨_, h, onlyPc_setPc s _, ?_⟩
  simp only [State.setPc_pc, hq]
  split
  · exact BitVec.toNat_add ..
  · rfl

/-- The patterns `5xy0` and `9xy0` are strict: with another low nibble nothing decodes (D3). -/
theorem decodeOp_skipReg (x y : Reg) (n : Nibble) :
    decodeOp (fmtXYN 0x5#4 x y n) = (if n = 0#4 then some (.seReg x y) else none) ∧
    decodeOp (fmtXYN 0x9#4 x y n) = (if n = 0#4 then some (.sneReg x y) else none) := by
  simp [decodeOp]

/-- Settles O29: the four skips by their conditions. -/
theorem skipsCompareRegisters : Obligations.SkipsCompareRegisters := by
  intro x y kk n s
  have hse : decodeOp (fmtXKK 0x3#4 x kk) = some (.seImm x kk) := decodeOp_encodeOp (i := .seImm x kk) rfl
  have hsne : decodeOp (fmtXKK 0x4#4 x kk) = some (.sneImm x kk) := decodeOp_encodeOp (i := .sneImm x kk) rfl
  exact ⟨⟨hse, hsne, decodeOp_skipReg x y n⟩, exec_skipIf rfl beq_iff_eq, exec_skipIf rfl bne_iff_ne,
    exec_skipIf rfl beq_iff_eq, exec_skipIf rfl bne_iff_ne⟩

/-! ## SYS (R148) -/

/-- The opcode of SYS is its address, zero-extended. -/
theorem fmtNNN_zero (nnn : Addr) : fmtNNN 0x0#4 nnn = zextAddr nnn := by
  apply BitVec.eq_of_toNat_eq
  simp [fmtNNN_toNat, zextAddr_toNat]

/-- Settles O30: SYS raises with its own opcode, and nothing was recorded before. -/
theorem sysIsAlwaysFatal : Obligations.SysIsAlwaysFatal := by
  intro nnn s hcls hret hf
  have hwf : (Instr.sys nnn).wellFormed = true := by simp [Instr.wellFormed, hcls, hret]
  have hdecode : decodeOp (fmtNNN 0x0#4 nnn) = some (.sys nnn) := decodeOp_encodeOp (i := .sys nnn) hwf
  refine ⟨hdecode, _, rfl, ?_⟩
  rw [fmtNNN_zero]
  exact State.raise_fault_of_none s _ hf

end Sys2Proof.Machine
end

section
/-! SUPPORT. Loads and stores: the register and index loads, and the blocks of memory that LD B, LD [I] and LD from [I]
access (R160 to R168, R184). -/

namespace Sys2Proof.Machine

/-! ## Register and index loads (R160 to R163, R184) -/

/-- An instruction that is a write of register `x` writes that register and nothing else. -/
theorem exec_setReg {i : Instr} {s : State} {x : Reg} {b : Byte} (h : exec i s = .next (s.setReg x b)) :
    ∃ t, exec i s = .next t ∧ OnlyRegs s t ∧ ∀ r, t.reg r = if r = x then b else s.reg r :=
  ⟨_, h, ⟨rfl, fun _ => rfl⟩, fun r => State.reg_setReg s x r b⟩

/-- Settles O31: each load is one register write. -/
theorem registerLoadsWriteVx : Obligations.RegisterLoadsWriteVx :=
  fun x y kk _ => ⟨⟨decodeOp_encodeOp (i := .ldImm x kk) rfl, decodeOp_encodeOp (i := .ldReg x y) rfl⟩,
    exec_setReg rfl, exec_setReg rfl⟩

theorem onlyIndex_setI (s : State) (a : Word) : OnlyIndex s (s.setI a) := ⟨rfl, fun _ => rfl⟩

theorem addWord_zextByte_toNat (a : Word) (b : Byte) :
    (addWord a (zextByte b)).toNat = (a.toNat + b.toNat) % 65536 := by
  rw [addWord, BitVec.toNat_ofNat, zextByte_toNat]

/-- Five times a byte fits a word, so the address of a glyph is exact (D23). -/
theorem glyphAddr_toNat (b : Byte) : (glyphAddr b).toNat = 5 * b.toNat := by
  rw [glyphAddr, BitVec.toNat_ofNat]
  omega

/-- Settles O32: both instructions are one write of `I`. -/
theorem indexLoadAndAddSetI : Obligations.IndexLoadAndAddSetI :=
  fun x nnn s => ⟨⟨decodeOp_encodeOp (i := .ldI nnn) rfl, decodeOp_encodeOp (i := .addIVx x) rfl⟩,
    ⟨_, rfl, onlyIndex_setI s _, zextAddr_toNat nnn⟩,
    ⟨_, rfl, onlyIndex_setI s _, addWord_zextByte_toNat s.i _⟩⟩

/-- Settles O33: LD F is one write of `I`. -/
theorem ldFSetsIToTheGlyph : Obligations.LdFSetsIToTheGlyph :=
  fun x s => ⟨decodeOp_encodeOp (i := .ldFVx x) rfl, _, rfl, onlyIndex_setI s _, glyphAddr_toNat _⟩

/-! ## Block stores (R164, R165) -/

/-- A block whose last address exists lies in the address space (R167). -/
theorem ea_lt_of_le {s : State} {k m : Nat} (h : k ≤ m) (hend : s.ea m < 4096) : s.ea k < 4096 :=
  lt_of_le_of_lt (Nat.add_le_add_left h s.i.toNat) hend

/-- Byte `f k` stands at `I + k` for every `k` below `n` that the lock lets be written, and nothing else differs. -/
def StoresBlock (f : Nat → Byte) (n : Nat) (s t : State) : Prop :=
  OnlyMem s t ∧ (∀ k, k < n → s.writable (s.ea k) = true → t.mem.read (s.ea k) = f k) ∧
    ∀ a, ((∀ k, k < n → a ≠ s.ea k) ∨ s.writable a = false) → t.mem.read a = s.mem.read a

/-- A loop that stores `f k` at `I + k`, all in the address space, stores the block. -/
theorem storeLoop_storesBlock {f : Nat → Byte} {body : Nat → State → Flow} {s : State} {n : Nat}
    (hm : s.mem.wf = true)
    (hb : ∀ k u, k < n → u = s.setMem u.mem → body k u = u.memWrite (u.ea k) (f k))
    (hlt : ∀ k, k < n → s.ea k < 4096) :
    StoresBlock f n s (forUpTo body n s).final := by
  obtain ⟨t, hgo, hframe, -, hread⟩ := storeLoop_go hm hb hlt
  rw [hgo]
  refine ⟨hframe, fun k hk hw => ?_, fun a ha => ?_⟩
  · rw [Flow.final, hread, if_pos ⟨by simp [ea_eq], by simpa [ea_eq] using hk, hw⟩, ea_eq, Nat.add_sub_cancel_left]
  · refine (hread a).trans (if_neg ?_)
    rintro ⟨hlo, hhi, hw⟩
    rcases ha with hout | hprot
    · exact hout (a - s.i.toNat) (by omega) (by rw [ea_eq]; omega)
    · simp [hw] at hprot

/-- The three digits of a byte as numbers: hundreds, tens, ones. -/
theorem bcdDigit_toNat (b : Byte) (j : Nat) : (bcdDigit b j).toNat =
    if j = 0 then b.toNat / 100 else if j = 1 then b.toNat / 10 % 10 else b.toNat % 10 := by
  match j with
  | 0 => simp [bcdDigit]; omega
  | 1 => simp [bcdDigit]; omega
  | _ + 2 => simp [bcdDigit]; omega

/-- Settles O34: LD B is the block store of the three digits. -/
theorem ldBStoresTheDecimalDigits : Obligations.LdBStoresTheDecimalDigits := by
  refine fun x s => ⟨decodeOp_encodeOp (i := .ldBVx x) rfl, fun hm hend => ?_⟩
  obtain ⟨hframe, hin, hout⟩ : StoresBlock (bcdDigit (s.reg x)) 3 s (forUpTo (storeDigit (s.reg x)) 3 s).final :=
    storeLoop_storesBlock hm (fun _ _ _ _ => rfl) fun k hk => ea_lt_of_le (Nat.le_of_lt_succ hk) hend
  exact ⟨_, rfl, hframe, fun j hj hw => by rw [hin j hj hw, bcdDigit_toNat], hout⟩

/-- Settles O35: LD [I] is the block store of registers 0 to `x`, which no round of the store changes. -/
theorem storeRegsStoresTheBlock : Obligations.StoreRegsStoresTheBlock := by
  refine fun x s => ⟨decodeOp_encodeOp (i := .storeRegs x) rfl, fun hm hend => ?_⟩
  have hround : ∀ k u, k < x.val + 1 → u = s.setMem u.mem →
      storeReg k u = u.memWrite (u.ea k) (s.reg (regNo k)) := fun k u _ hu => by
    have hreg : u.reg (regNo k) = s.reg (regNo k) := by rw [hu]; rfl
    rw [storeReg, hreg]
  obtain ⟨hframe, hin, hout⟩ :
      StoresBlock (fun k => s.reg (regNo k)) (x.val + 1) s (forUpTo storeReg (x.val + 1) s).final :=
    storeLoop_storesBlock hm hround fun k hk => ea_lt_of_le (Nat.le_of_lt_succ hk) hend
  refine ⟨_, rfl, hframe, fun k hk hw => ?_, fun a ha => hout a (ha.imp_left fun h k hk => ?_)⟩
  · exact (hin k.val (Nat.lt_succ_of_le hk) hw).trans (congrArg s.reg (regNo_self k))
  · have hreg : k < 16 := by omega
    exact h ⟨k, hreg⟩ (Nat.le_of_lt_succ hk)

/-! ## Block loads (R166) -/

/-- A round of LD Vx, [I] whose address exists is one register write. -/
theorem loadReg_go {k : Nat} {s : State} (h : s.ea k < 4096) :
    loadReg k s = .go (s.setReg (regNo k) (s.mem.read (s.ea k))) := by
  simp only [loadReg, memRead_ok h]

theorem loadReg_halted {k : Nat} {s : State} (h : 4096 ≤ s.ea k) :
    loadReg k s = .halted (s.raise (.addressOutOfRange (s.ea k))) := by
  simp only [loadReg, memRead_error h]

/-- The loads of registers 0 to `n - 1`, all in the address space: they go on, and registers below `n` hold the
block. -/
theorem loadLoop_go {s : State} {n : Nat} (hn : n ≤ 16) (hlt : ∀ k, k < n → s.ea k < 4096) :
    ∃ t, forUpTo loadReg n s = .go t ∧ t = { s with v := t.v } ∧
      ∀ r : Reg, t.reg r = if r.val < n then s.mem.read (s.ea r.val) else s.reg r := by
  refine forUpTo_go (fun m t => t = { s with v := t.v } ∧
    ∀ r : Reg, t.reg r = if r.val < m then s.mem.read (s.ea r.val) else s.reg r) ⟨rfl, fun r => by simp⟩ ?_
  rintro k u hk ⟨hu, hr⟩
  have hea : u.ea k = s.ea k := by rw [hu]; rfl
  have hmem : u.mem = s.mem := by rw [hu]
  refine ⟨_, loadReg_go (hea ▸ hlt k hk), by rw [hu]; rfl, fun r => ?_⟩
  rw [State.reg_setReg, hr, hea, hmem]
  rcases eq_or_ne r (regNo k) with rfl | hne
  · simp [regNo_val (show k < 16 by omega)]
  · have hval : r.val ≠ k := by
      rintro rfl
      exact hne (regNo_self r).symm
    simp only [if_neg hne, show r.val < k + 1 ↔ r.val < k by omega]

/-- Settles O36: registers 0 to `x` are those below `x + 1`. -/
theorem loadRegsLoadsTheBlock : Obligations.LoadRegsLoadsTheBlock := by
  refine fun x s => ⟨decodeOp_encodeOp (i := .loadRegs x) rfl, fun hend => ?_⟩
  obtain ⟨t, hgo, hframe, hreg⟩ := loadLoop_go (s := s) (n := x.val + 1) (by omega) fun k hk =>
    ea_lt_of_le (Nat.le_of_lt_succ hk) hend
  refine ⟨t, ?_, ⟨hframe, fun _ => by rw [hframe]⟩, fun r => ?_⟩
  · simp only [exec, execLoadRegs, hgo, Flow.final]
  · simp only [hreg, Nat.lt_succ_iff, Fin.le_def]

/-- Settles O38: the working region is writable under every lock, and the load reads the stored bytes back. -/
theorem loadAfterStoreRestoresTheRegisters : Obligations.LoadAfterStoreRestoresTheRegisters := by
  intro x s between hm hwork hend
  obtain ⟨-, hstore⟩ := storeRegsStoresTheBlock x s
  obtain ⟨t, hst, hframe, hin, -⟩ := hstore hm hend
  have hea : ∀ k, State.ea { t with v := between } k = s.ea k := fun k => by rw [hframe]; rfl
  obtain ⟨-, hload⟩ := loadRegsLoadsTheBlock x { t with v := between }
  obtain ⟨u, hld, -, hreg⟩ := hload ((hea x.val).symm ▸ hend)
  refine ⟨t, u, hst, hld, fun k hk => ?_⟩
  have hw : s.writable (s.ea k.val) = true := writable_iff.mpr (.inr (.inr (by rw [ea_eq]; omega)))
  rw [hreg, if_pos hk, hea]
  exact hin k hk hw

/-! ## Blocks past the end (R167, R233, D11) -/

/-- Round `k` of the loop accesses memory at `I + k`: it raises there if the address does not exist, and otherwise goes
on with `I` and the fault record kept. -/
def AccessesBlock (body : Nat → State → Flow) : Prop :=
  ∀ k s, (4096 ≤ s.ea k → body k s = .halted (s.raise (.addressOutOfRange (s.ea k)))) ∧
    (s.ea k < 4096 → ∃ t, body k s = .go t ∧ t.i = s.i ∧ t.fault = s.fault)

/-- A loop whose rounds write a byte at `I + k`. -/
theorem accessesBlock_memWrite (f : Nat → State → Byte) :
    AccessesBlock fun k s => s.memWrite (s.ea k) (f k s) :=
  fun _ _ => ⟨memWrite_halted _, fun h => ⟨_, memWrite_go _ h, rfl, rfl⟩⟩

theorem accessesBlock_loadReg : AccessesBlock loadReg :=
  fun _ _ => ⟨loadReg_halted, fun h => ⟨_, loadReg_go h, rfl, rfl⟩⟩

/-- A row of a sprite reads its byte at `I + row`; its eight bits then never raise. -/
theorem accessesBlock_drawRow (vx vy : Byte) : AccessesBlock (drawRow vx vy) := by
  refine fun row s => ⟨fun h => by simp only [drawRow, memRead_error h], fun h => ?_⟩
  simp only [drawRow, memRead_ok h]
  refine forUpTo_go (fun _ t => t.i = s.i ∧ t.fault = s.fault) ⟨rfl, rfl⟩ ?_
  rintro col u - ⟨hi, hf⟩
  obtain ⟨w, hw, hframe⟩ := drawPixel_go vx vy (s.mem.read (s.ea row)) row col u
  exact ⟨w, hw, by rw [hframe]; exact hi, by rw [hframe]; exact hf⟩

/-- A block that runs past 0x0FFF is fatal with its first missing address, which is `I` itself or 4096: every round
below it goes on. -/
theorem AccessesBlock.fault_eq {body : Nat → State → Flow} (hbody : AccessesBlock body) {n k : Nat} {s : State}
    (hf : s.fault = none) (hk : k < n) (hend : 4096 ≤ s.ea k) :
    (forUpTo body n s).final.fault = some (.addressOutOfRange (max s.i.toNat 4096)) := by
  have hround : 4096 - s.i.toNat < n := by rw [ea_eq] at hend; omega
  obtain ⟨t, hhalted, hfault⟩ := forUpTo_halted (body := body) (fun _ u => u.i = s.i ∧ u.fault = none)
    (fun w => w.fault = some (.addressOutOfRange (max s.i.toNat 4096))) hround ⟨rfl, hf⟩
    (fun j u hj ⟨hi, hu⟩ => by
      obtain ⟨w, hw, hwi, hwf⟩ := (hbody j u).2 (by rw [ea_eq, hi]; omega)
      exact ⟨w, hw, hwi.trans hi, hwf.trans hu⟩)
    (fun u ⟨hi, hu⟩ => by
      have hfirst : u.ea (4096 - s.i.toNat) = max s.i.toNat 4096 := by rw [ea_eq, hi]; omega
      refine ⟨_, (hbody _ u).1 (by omega), ?_⟩
      rw [State.raise_fault_of_none u _ hu, hfirst])
  rw [hhalted]
  exact hfault

/-- Settles O37: each of the four is a loop that accesses the block at `I`. -/
theorem blockAccessPastTheEndIsFatal : Obligations.BlockAccessPastTheEndIsFatal := by
  intro x y n s hf
  refine ⟨fun h => ⟨_, rfl, ?_⟩, fun h => ⟨_, rfl, ?_⟩, fun h => ⟨_, rfl, ?_⟩, ?_⟩
  · exact (accessesBlock_memWrite fun k _ => bcdDigit (s.reg x) k).fault_eq hf (Nat.lt_succ_self 2) h
  · exact (accessesBlock_memWrite fun k u => u.reg (regNo k)).fault_eq hf (Nat.lt_succ_self x.val) h
  · exact accessesBlock_loadReg.fault_eq hf (Nat.lt_succ_self x.val) h
  · rintro ⟨row, hrow, h⟩
    exact ⟨_, rfl, (accessesBlock_drawRow (s.reg x) (s.reg y)).fault_eq (s := s.setFlag 0x00#8) hf hrow h⟩

end Sys2Proof.Machine
end

section
/-! SUPPORT. Arithmetic, logic, shifts and random: what each operation computes as a number, and the two shapes of a
result, one register write or a result and its flag (R180 to R192). -/

namespace Sys2Proof.Machine

/-! ## The operations as numbers (R180, R185, R190, R191) -/

theorem addByte_toNat (a b : Byte) : (addByte a b).toNat = (a.toNat + b.toNat) % 256 := BitVec.toNat_ofNat ..

theorem subByte_toNat (a b : Byte) : (subByte a b).toNat = (a.toNat + 256 - b.toNat) % 256 := BitVec.toNat_ofNat ..

/-- Half a byte is a byte, so nothing is reduced. -/
theorem shrByte_toNat (a : Byte) : (shrByte a).toNat = a.toNat / 2 := by
  rw [shrByte, BitVec.toNat_ofNat]
  omega

theorem shlByte_toNat (a : Byte) : (shlByte a).toNat = 2 * a.toNat % 256 := BitVec.toNat_ofNat ..

/-! ## The flags as numbers (R21, R183, R185, R190, R191) -/

theorem flagByte_toNat (p : Prop) [Decidable p] : (flagByte (decide p)).toNat = if p then 1 else 0 := by
  by_cases h : p <;> simp [flagByte, h]

theorem carryFlag_toNat (a b : Byte) : (carryFlag a b).toNat = if 256 ≤ a.toNat + b.toNat then 1 else 0 :=
  flagByte_toNat _

theorem borrowFlag_toNat (a b : Byte) : (borrowFlag a b).toNat = if a.toNat < b.toNat then 1 else 0 :=
  flagByte_toNat _

theorem shrFlag_toNat (a : Byte) : (shrFlag a).toNat = a.toNat % 2 := Nat.and_one_is_mod _

/-- The mask 0x80 keeps the highest bit at its place, so the flag is 0 or 128, never 1. -/
theorem shlFlag_toNat (a : Byte) : (shlFlag a).toNat = 128 * (a.toNat / 128) := by
  have hmask : (shlFlag a).toNat = a.toNat &&& 2 ^ 7 := rfl
  rw [hmask, Nat.and_two_pow, Nat.toNat_testBit]
  omega

/-! ## Addition without a flag (R182) -/

/-- Settles O39: ADD Vx, kk is one register write. -/
theorem addImmediateWrapsWithoutFlag : Obligations.AddImmediateWrapsWithoutFlag := by
  intro x kk s
  obtain ⟨t, ht, hregs, hreg⟩ := exec_setReg (i := .addImm x kk) (s := s) rfl
  refine ⟨decodeOp_encodeOp (i := .addImm x kk) rfl, t, ht, hregs, fun r => ?_⟩
  rw [hreg, apply_ite BitVec.toNat, addByte_toNat]

/-! ## A result and its flag (R181, R183, R185, R186, R190, R191) -/

/-- The flag is committed last, so it stays in `V[15]` even where that is the result's register (D5). -/
theorem reg_commit (s : State) (x : Reg) (b f : Byte) (r : Reg) :
    (s.commit x b f).reg r = if r = 15 then f else if r = x then b else s.reg r := by
  rw [State.commit_eq, State.reg_setReg, State.reg_setReg]

theorem reg_commit_flag (s : State) (x : Reg) (b f : Byte) : (s.commit x b f).reg 15 = f := by
  rw [reg_commit, if_pos rfl]

theorem reg_commit_result {x : Reg} (hx : x ≠ 15) (s : State) (b f : Byte) : (s.commit x b f).reg x = b := by
  rw [reg_commit, if_neg hx, if_pos rfl]

/-- An instruction that commits a result and a flag writes those two registers and nothing else. -/
theorem exec_commit {i : Instr} {s : State} {x : Reg} {b f : Byte} {result flag : Nat}
    (h : exec i s = .next (s.commit x b f)) (hb : b.toNat = result) (hf : f.toNat = flag) :
    ∃ t, exec i s = .next t ∧ OnlyRegs s t ∧
      ∀ r, (t.reg r).toNat = if r = 15 then flag else if r = x then result else (s.reg r).toNat := by
  refine ⟨_, h, ⟨rfl, fun _ => rfl⟩, fun r => ?_⟩
  rw [reg_commit, apply_ite BitVec.toNat, apply_ite BitVec.toNat, hb, hf]

/-- Settles O40: ADD commits the sum and the carry. -/
theorem addRegisterSetsTheCarry : Obligations.AddRegisterSetsTheCarry :=
  fun x y _ => ⟨decodeOp_encodeOp (i := .addReg x y) rfl,
    exec_commit rfl (addByte_toNat _ _) (carryFlag_toNat _ _)⟩

/-- Settles O41: SUB commits the difference and the borrow. -/
theorem subSetsTheBorrow : Obligations.SubSetsTheBorrow :=
  fun x y _ => ⟨decodeOp_encodeOp (i := .subReg x y) rfl,
    exec_commit rfl (subByte_toNat _ _) (borrowFlag_toNat _ _)⟩

/-- Settles O42: SUBN commits the difference and the borrow of the exchanged operands (D4). -/
theorem subnSetsTheBorrow : Obligations.SubnSetsTheBorrow :=
  fun x y _ => ⟨decodeOp_encodeOp (i := .subnReg x y) rfl,
    exec_commit rfl (subByte_toNat _ _) (borrowFlag_toNat _ _)⟩

/-- Settles O44: each shift commits the shifted byte and the bit it lost. -/
theorem shiftsKeepTheLostBit : Obligations.ShiftsKeepTheLostBit :=
  fun x y _ => ⟨⟨decodeOp_encodeOp (i := .shr x y) rfl, decodeOp_encodeOp (i := .shl x y) rfl⟩,
    exec_commit rfl (shrByte_toNat _) (shrFlag_toNat _), exec_commit rfl (shlByte_toNat _) (shlFlag_toNat _)⟩

/-! ## SHL, then SHR (S2) -/

/-- Up and down again keeps the low seven bits. -/
theorem shrByte_shlByte (a : Byte) : shrByte (shlByte a) = a &&& 0x7F#8 := by
  have hmask : (a &&& 0x7F#8).toNat = a.toNat % 2 ^ 7 := Nat.and_two_pow_sub_one_eq_mod a.toNat 7
  apply BitVec.eq_of_toNat_eq
  rw [shrByte_toNat, shlByte_toNat, hmask]
  omega

/-- A byte shifted up is even. -/
theorem shrFlag_shlByte (a : Byte) : shrFlag (shlByte a) = 0x00#8 := by
  apply BitVec.eq_of_toNat_eq
  rw [shrFlag_toNat, shlByte_toNat, BitVec.toNat_ofNat]
  omega

/-- Settles O45: SHL leaves the shifted byte in `V[x]`, which is not the flag, and SHR shifts that byte. -/
theorem shlThenShrLosesTheHighBit : Obligations.ShlThenShrLosesTheHighBit := by
  intro x y y' s hx
  have hshl := reg_commit_result hx s (shlByte (s.reg x)) (shlFlag (s.reg x))
  refine ⟨_, _, rfl, rfl, reg_commit_flag .., ?_, ?_⟩
  · rw [reg_commit_result hx, hshl, shrByte_shlByte]
  · rw [reg_commit_flag, hshl, shrFlag_shlByte]

/-! ## Logic (R187 to R189) -/

/-- Settles O43: each of the three is one register write. -/
theorem logicWritesVxWithoutFlag : Obligations.LogicWritesVxWithoutFlag :=
  fun x y _ => ⟨⟨decodeOp_encodeOp (i := .orReg x y) rfl, decodeOp_encodeOp (i := .andReg x y) rfl,
    decodeOp_encodeOp (i := .xorReg x y) rfl⟩, exec_setReg rfl, exec_setReg rfl, exec_setReg rfl⟩

/-! ## Random (R192) -/

/-- Settles O46: RND counts the draw and writes one register, and no bit of `b &&& kk` is outside `kk`, whatever
`b` is. -/
theorem rndMasksAFreshDraw : Obligations.RndMasksAFreshDraw := by
  intro x kk s
  have hreg : ∀ r, (s.random8.2.setReg x (s.random8.1 &&& kk)).reg r =
      if r = x then Config.random8 s.draws &&& kk else s.reg r := fun r => State.reg_setReg _ x r _
  refine ⟨decodeOp_encodeOp (i := .rnd x kk) rfl, _, rfl, rfl, fun _ => rfl, hreg, ?_⟩
  rw [hreg, if_pos rfl, BitVec.and_assoc, BitVec.and_not_self]
  exact BitVec.and_zero

end Sys2Proof.Machine
end

section
/-! SUPPORT. The display: CLS, and what DRW has drawn after each bit of its sprite (R200 to R202). -/

namespace Sys2Proof.Machine

/-! ## CLS (R200) -/

/-- Settles O20: CLS writes an empty framebuffer. -/
theorem clsZeroesTheFramebuffer : Obligations.ClsZeroesTheFramebuffer :=
  ⟨decodeOp_encodeOp (i := .cls) rfl, fun s => ⟨s.fbClear, rfl, fun _ _ => BitVec.getLsbD_zero, rfl, fun _ => rfl⟩⟩

/-! ## The cells of a sprite (R201, R202) -/

/-- The cell under column `col` of row `row` of a sprite drawn at `(vx, vy)`. -/
def spriteCell (vx vy : Byte) (row col : Nat) : Fin 64 × Fin 32 :=
  (Fin.ofNat 64 (vx.toNat + col), Fin.ofNat 32 (vy.toNat + row))

/-- The cells under a set bit of the first `n` columns of a row that holds the byte `b`. -/
def rowCells (vx vy b : Byte) (row n : Nat) : Set (Fin 64 × Fin 32) :=
  {p | ∃ col < n, b.getLsbD (7 - col) = true ∧ p = spriteCell vx vy row col}

/-- The cells under a set bit of the first `n` rows of the sprite at `I`. -/
def spriteCells (s : State) (vx vy : Byte) (n : Nat) : Set (Fin 64 × Fin 32) :=
  {p | ∃ row < n, p ∈ rowCells vx vy (s.mem.read (s.ea row)) row 8}

theorem mem_spriteCells {s : State} {x y : Reg} {n : Height} {cx : Fin 64} {cy : Fin 32} :
    (cx, cy) ∈ spriteCells s (s.reg x) (s.reg y) n.val ↔ s.spriteCovers x y n cx cy := by
  simp [spriteCells, rowCells, spriteCell, State.spriteCovers, Prod.ext_iff, Fin.ext_iff]

theorem rowCells_succ_set {vx vy b : Byte} {row n : Nat} (hb : b.getLsbD (7 - n) = true) :
    rowCells vx vy b row (n + 1) = insert (spriteCell vx vy row n) (rowCells vx vy b row n) := by
  ext p
  simp only [rowCells, Set.mem_ofPred_eq, Set.mem_insert_iff, Nat.exists_lt_succ_right, hb, true_and, or_comm]

theorem rowCells_succ_clear {vx vy b : Byte} {row n : Nat} (hb : b.getLsbD (7 - n) = false) :
    rowCells vx vy b row (n + 1) = rowCells vx vy b row n := by
  ext p
  simp only [rowCells, Set.mem_ofPred_eq, Nat.exists_lt_succ_right, hb, Bool.false_eq_true, false_and, or_false]

theorem spriteCells_succ (s : State) (vx vy : Byte) (n : Nat) :
    spriteCells s vx vy (n + 1) = spriteCells s vx vy n ∪ rowCells vx vy (s.mem.read (s.ea n)) n 8 := by
  ext p
  simp only [spriteCells, Set.mem_ofPred_eq, Set.mem_union, Nat.exists_lt_succ_right]

/-- No two of the eight columns of a row share a cell: the screen is 64 columns wide. -/
theorem spriteCell_notMem_rowCells {vx vy b : Byte} {row col : Nat} (h : col < 8) :
    spriteCell vx vy row col ∉ rowCells vx vy b row col := by
  rintro ⟨c, hc, -, he⟩
  simp only [spriteCell, Prod.ext_iff, Fin.ext_iff, Fin.val_ofNat] at he
  omega

/-- No two of the at most fifteen rows share a cell: the screen is 32 rows high. -/
theorem spriteCell_notMem_spriteCells {s : State} {vx vy : Byte} {row col : Nat} (h : row < 16) :
    spriteCell vx vy row col ∉ spriteCells s vx vy row := by
  rintro ⟨r, hr, c, -, -, he⟩
  simp only [spriteCell, Prod.ext_iff, Fin.ext_iff, Fin.val_ofNat] at he
  omega

/-! ## What has been drawn (R201) -/

/-- DRW, begun in `s`, has toggled exactly the cells of `D` in `t`, and `V[15]` reports whether one was lit. -/
structure Drawn (s : State) (D : Set (Fin 64 × Fin 32)) (t : State) : Prop where
  frame : t = { s with v := t.v, fb := t.fb }
  reg : ∀ r, r ≠ 15 → t.reg r = s.reg r
  cell : ∀ cx cy, t.cell cx cy = true ↔ ¬ (s.cell cx cy = true ↔ (cx, cy) ∈ D)
  hit : (∃ cx cy, s.cell cx cy = true ∧ (cx, cy) ∈ D) → t.reg 15 = 0x01#8
  noHit : (¬ ∃ cx cy, s.cell cx cy = true ∧ (cx, cy) ∈ D) → t.reg 15 = 0x00#8

theorem drawn_setFlag (s : State) : Drawn s ∅ (s.setFlag 0x00#8) where
  frame := rfl
  reg r hr := by simp [State.setFlag, hr]
  cell cx cy := by simp [State.setFlag]
  hit := by simp
  noHit _ := by simp [State.setFlag]

/-- A clear bit draws nothing. -/
theorem drawPixel_clear {vx vy b : Byte} {row col : Nat} (hb : b.getLsbD (7 - col) = false) (u : State) :
    drawPixel vx vy b row col u = .go u := by
  simp [drawPixel, hb]

/-- A draw writes no register. -/
theorem reg_fbDraw (s : State) (x : Fin 64) (y : Fin 32) (bit : Bool) (r : Reg) :
    (s.fbDraw x y bit).2.reg r = s.reg r := rfl

/-- A set bit draws its cell, and sets `V[15]` where the cell was lit. -/
theorem drawPixel_set {vx vy b : Byte} {row col : Nat} {px : Fin 64} {py : Fin 32}
    (hb : b.getLsbD (7 - col) = true) (hp : spriteCell vx vy row col = (px, py)) (u : State) :
    drawPixel vx vy b row col u =
      .go (if u.cell px py then (u.fbDraw px py true).2.setFlag 0x01#8 else (u.fbDraw px py true).2) := by
  obtain ⟨rfl, rfl⟩ := Prod.mk.inj hp
  simp [drawPixel, hb, State.fbDraw]

/-- A set bit toggles its cell, and writes no item but that cell and `V[15]`. -/
theorem drawPixel_toggles {vx vy b : Byte} {row col : Nat} {px : Fin 64} {py : Fin 32}
    (hb : b.getLsbD (7 - col) = true) (hp : spriteCell vx vy row col = (px, py)) (u : State) :
    ∃ w, drawPixel vx vy b row col u = .go w ∧ w = { u with v := w.v, fb := w.fb } ∧
      (∀ r, w.reg r = if u.cell px py = true ∧ r = 15 then 0x01#8 else u.reg r) ∧
      ∀ cx cy, w.cell cx cy = (u.cell cx cy ^^ decide (cx = px ∧ cy = py)) := by
  refine ⟨_, drawPixel_set hb hp u, ?_⟩
  have hcell (cx : Fin 64) (cy : Fin 32) := cell_fbDraw u px cx py cy true
  cases u.cell px py with
  | false => exact ⟨rfl, fun r => by simp [reg_fbDraw], by simpa using hcell⟩
  | true => exact ⟨rfl, fun r => by simp [State.setFlag, reg_fbDraw], by simpa [State.setFlag] using hcell⟩

/-- A set bit whose cell has not been drawn yet adds that cell: there the screen is still that of `s`. -/
theorem Drawn.pixel {s u : State} {D : Set (Fin 64 × Fin 32)} {vx vy b : Byte} {row col : Nat}
    (h : Drawn s D u) (hb : b.getLsbD (7 - col) = true) (hnew : spriteCell vx vy row col ∉ D) :
    ∃ w, drawPixel vx vy b row col u = .go w ∧ Drawn s (insert (spriteCell vx vy row col) D) w := by
  rcases hp : spriteCell vx vy row col with ⟨px, py⟩
  rw [hp] at hnew
  obtain ⟨w, hgo, hframe, hreg, hcell⟩ := drawPixel_toggles hb hp u
  have hold : u.cell px py = s.cell px py := Bool.eq_iff_iff.mpr (by simp [h.cell, hnew])
  simp only [hold] at hreg
  refine ⟨w, hgo, ⟨by rw [hframe, h.frame], fun r hr => ?_, fun cx cy => ?_, ?_, fun hno => ?_⟩⟩
  · simp [hreg, hr, h.reg]
  · rw [hcell]
    by_cases hcp : cx = px ∧ cy = py
    · obtain ⟨rfl, rfl⟩ := hcp
      simp [hold]
    · simp [hcp, h.cell]
  · rintro ⟨cx, cy, hlit, hcp | hD⟩
    · obtain ⟨rfl, rfl⟩ := Prod.mk.inj hcp
      simp [hreg, hlit]
    · simp [hreg, h.hit ⟨cx, cy, hlit, hD⟩]
  · have hdark : ¬ s.cell px py = true := fun hlit => hno ⟨px, py, hlit, Set.mem_insert ..⟩
    rw [hreg, if_neg fun hlit => hdark hlit.1]
    exact h.noHit fun ⟨cx, cy, hlit, hD⟩ => hno ⟨cx, cy, hlit, Set.mem_insert_of_mem _ hD⟩

/-- The sprite's next row adds the cells under its set bits. -/
theorem Drawn.row {s u : State} {vx vy : Byte} {row : Nat} (h : Drawn s (spriteCells s vx vy row) u)
    (hrow : row < 16) (hlt : s.ea row < 4096) :
    ∃ w, drawRow vx vy row u = .go w ∧ Drawn s (spriteCells s vx vy (row + 1)) w := by
  have hread : u.memRead (u.ea row) = .ok (s.mem.read (s.ea row)) := by
    rw [h.frame]
    exact memRead_ok hlt
  rw [spriteCells_succ, drawRow, hread]
  refine forUpTo_go (fun col => Drawn s (spriteCells s vx vy row ∪ rowCells vx vy _ row col)) ?_
    fun col w hcol hw => ?_
  · simpa [rowCells] using h
  · cases hb : (s.mem.read (s.ea row)).getLsbD (7 - col) with
    | false => exact ⟨w, drawPixel_clear hb w, by rwa [rowCells_succ_clear hb]⟩
    | true =>
      rw [rowCells_succ_set hb, Set.union_insert]
      exact hw.pixel hb
        (not_or_intro (spriteCell_notMem_spriteCells hrow) (spriteCell_notMem_rowCells hcol))

/-- DRW draws its whole sprite where every row of it is in memory (D6: the coordinates are those of `s`). -/
theorem execDrw_drawn {x y : Reg} {n : Height} {s : State} (hlt : ∀ row, row < n.val → s.ea row < 4096) :
    ∃ t, exec (.drw x y n) s = .next t ∧ Drawn s (spriteCells s (s.reg x) (s.reg y) n.val) t := by
  obtain ⟨t, hgo, ht⟩ := forUpTo_go (body := drawRow (s.reg x) (s.reg y)) (n := n.val) (s := s.setFlag 0x00#8)
    (fun row => Drawn s (spriteCells s (s.reg x) (s.reg y) row)) (by simpa [spriteCells] using drawn_setFlag s)
    fun row u hrow hu => hu.row (by omega) (hlt row hrow)
  exact ⟨t, congrArg (Host.Outcome.next ∘ Flow.final) hgo, ht⟩

/-- Settles O21, from what has been drawn after the sprite's last row. -/
theorem drwDrawsTheSprite : Obligations.DrwDrawsTheSprite := by
  intro x y n s hlt
  obtain ⟨t, ht, hframe, hreg, hcell, hhit, hnoHit⟩ := execDrw_drawn (x := x) (y := y) hlt
  simp only [mem_spriteCells] at hcell hhit hnoHit
  exact ⟨t, ht, ⟨hframe, fun a => by rw [hframe]⟩, hreg, hcell, hhit, hnoHit⟩

/-! ## Drawing twice (S3) -/

/-- Two framebuffers with the same cells are one. -/
theorem fb_eq_of_cell_eq {s t : State} (h : ∀ cx cy, s.cell cx cy = t.cell cx cy) : s.fb = t.fb := by
  refine BitVec.eq_of_getLsbD_eq fun k hk => ?_
  have hindex : fbIndex (k % 64) (k / 64) = k := Nat.mod_add_div k 64
  have hcell := h ⟨k % 64, by omega⟩ ⟨k / 64, by omega⟩
  rwa [State.cell, State.cell, hindex] at hcell

/-- A sprite covers the same cells after a draw that kept its coordinates. -/
theorem spriteCovers_congr {s t : State} {x y : Reg} (h : OnlyRegsFb s t) (hx : t.reg x = s.reg x)
    (hy : t.reg y = s.reg y) : t.spriteCovers x y = s.spriteCovers x y := by
  obtain ⟨hframe, hbytes⟩ := h
  have hea : t.ea = s.ea := by rw [hframe]; rfl
  unfold State.spriteCovers
  simp only [hx, hy, hea, hbytes _]

/-- Settles O22: the second draw covers the cells of the first, so it toggles each of them back, and it meets a lit
cell where the first met an unlit one. -/
theorem drawingTwiceRestoresTheFramebuffer : Obligations.DrawingTwiceRestoresTheFramebuffer := by
  intro x y n s t u hlt hst hx hy htu
  obtain ⟨t', hst', hsame, -, hcell, -, -⟩ := drwDrawsTheSprite x y n s hlt
  obtain rfl : t' = t := by simpa [hst] using hst'.symm
  have hea : t'.ea = s.ea := by rw [hsame.1]; rfl
  obtain ⟨u', htu', -, -, hcell', hhit, hnoHit⟩ := drwDrawsTheSprite x y n t' (by rwa [hea])
  obtain rfl : u' = u := by simpa [htu] using htu'.symm
  simp only [spriteCovers_congr hsame hx hy, hcell] at hcell' hhit hnoHit
  have hmet : ∀ cx cy, (¬ (s.cell cx cy = true ↔ s.spriteCovers x y n cx cy) ∧ s.spriteCovers x y n cx cy) ↔
      s.cell cx cy = false ∧ s.spriteCovers x y n cx cy := fun cx cy => by
    rw [← Bool.not_eq_true]; tauto
  simp only [hmet] at hhit hnoHit
  refine ⟨fb_eq_of_cell_eq fun cx cy => ?_, fun hflag => ?_, hhit⟩
  · rw [Bool.eq_iff_iff, hcell']
    tauto
  · by_contra hno
    rw [hnoHit hno] at hflag
    exact absurd hflag (by decide)

end Sys2Proof.Machine
end

section
/-! SUPPORT. Timers and keypad: the byte moves of the timers, the key wait with the key press that ends it, and the
skips on a key (R210 to R216, R250). -/

namespace Sys2Proof.Machine

/-! ## The key wait (R213, R250) -/

/-- A key number is a byte, so the byte that a key press writes is that number. -/
theorem keyByte_toNat (k : Fin 16) : (BitVec.ofNat 8 k.val).toNat = k.val := by
  rw [BitVec.toNat_ofNat]
  omega

/-- Settles O48: LD Vx, K is one write of the status, and the key press then finds the wait for `x` in it. -/
theorem keyWaitEndsWithTheKeyNumber : Obligations.KeyWaitEndsWithTheKeyNumber := by
  intro x k s hf hc
  have hpress := act_keyPress_waiting (s := s.setStatus (.waitingKeypress x)) k hf hc rfl
  refine ⟨decodeOp_encodeOp (i := .ldVxK x) rfl, _, _, rfl, rfl, fun _ => rfl, hpress, rfl, fun r => ?_⟩
  rw [State.reg_setStatus, State.reg_setReg, State.reg_setStatus, apply_ite BitVec.toNat, keyByte_toNat]

/-! ## The timers (R210 to R212) -/

/-- Settles O47: each of the three is one write, of a register or of a timer. -/
theorem timerMovesCopyTheByte : Obligations.TimerMovesCopyTheByte :=
  fun x _ => ⟨⟨decodeOp_encodeOp (i := .ldVxDt x) rfl, decodeOp_encodeOp (i := .ldDtVx x) rfl,
    decodeOp_encodeOp (i := .ldStVx x) rfl⟩,
    exec_setReg rfl, ⟨_, rfl, rfl, fun _ => rfl⟩, ⟨_, rfl, rfl, fun _ => rfl⟩⟩

/-! ## The skips on a key (R214 to R216) -/

/-- A skip on the key that `V[x]` numbers moves `pc`, and `pc` alone, exactly when the key's bit is `down`. -/
theorem exec_skipOnKey {i : Instr} {s : State} {x : Reg} {down : Bool} (h : exec i s = .next (s.skipOnKey x down))
    (hx : (s.reg x).toNat ≤ 15) :
    ∃ t, exec i s = .next t ∧ OnlyPc s t ∧
      t.pc = if s.keyDown (s.reg x).toNat = down then s.pc + 2#16 else s.pc := by
  rw [skipOnKey_ok hx, skipIf_eq] at h
  exact ⟨_, h, onlyPc_setPc s _, by simp only [State.setPc_pc, beq_iff_eq]⟩

/-- Settles O49: SKP skips on a bit that is 1, SKNP on one that is 0, which is not 1. -/
theorem keySkipsTestTheMask : Obligations.KeySkipsTestTheMask := by
  refine fun x s => ⟨⟨decodeOp_encodeOp (i := .skp x) rfl, decodeOp_encodeOp (i := .sknp x) rfl⟩,
    fun hx => ⟨exec_skipOnKey rfl hx, ?_⟩⟩
  obtain ⟨t, ht, honly, hpc⟩ := exec_skipOnKey (i := .sknp x) rfl hx
  simp only [← Bool.not_eq_true, ite_not] at hpc
  exact ⟨t, ht, honly, hpc⟩

/-- Settles O50: a key number above 15 raises whichever bit the skip waits for, and nothing was recorded before. -/
theorem keyNumberAboveFifteenIsFatal : Obligations.KeyNumberAboveFifteenIsFatal := by
  intro x s hx hf
  have hfault (down : Bool) : (s.skipOnKey x down).fault = some (.keyIndexOutOfRange (s.reg x)) := by
    rw [skipOnKey_raise hx]
    exact State.raise_fault_of_none s _ hf
  exact ⟨⟨_, rfl, hfault true⟩, ⟨_, rfl, hfault false⟩⟩

end Sys2Proof.Machine
end

section
/-! SUPPORT. Exceptions and the host's moves: the fatal decode, the construction on an unlocked machine, and the
operations on CPU Engine state, with and without a CPU Engine (R232, R235, R248 to R251). -/

namespace Sys2Proof.Machine

/-! ## The fatal decode (R232) -/

/-- A cycle whose fetch answers an opcode that matches no row ends with that cause, after `pc` is advanced. -/
theorem fetchAndExecute_undecoded {s : State} {op : Word} (hop : s.memReadWord s.pc.toNat = .ok op)
    (hd : decodeOp op = none) : fetchAndExecute s = .next (s.advancePc.raise (.decodeFailure op)) := by
  simp only [fetchAndExecute, hop, hd]

/-- Settles O9: the two guards are open, and advancing `pc` records no cause before the decode does. -/
theorem undecodableOpcodeIsFatal : Obligations.UndecodableOpcodeIsFatal := by
  intro s op hf hc hr hop hd
  exact ⟨_, (step_running hf hc hr).trans (fetchAndExecute_undecoded hop hd),
    State.raise_fault_of_none s.advancePc _ hf, rfl⟩

/-! ## Without a CPU Engine (R235, R247, R248) -/

theorem step_cpuAbsent {s : State} (hf : s.fault = none) (hc : s.cpuPresent = false) :
    step s = .refused .cpuAbsent := by
  simp only [step, cycle, hf, hc, Bool.false_eq_true, if_false]

theorem act_constructCpu_unlocked {s : State} (hf : s.fault = none) (hc : s.cpuPresent = false)
    (hl : s.locked = false) : act .constructCpu s = .next (s.raise .constructUnlocked) := by
  simp only [act, hf, State.constructCpu, hc, hl, Bool.false_eq_true, if_false]

/-- Settles O18: a raise makes no CPU Engine, and the cause it records stops the cycles after it. -/
theorem constructingUnlockedIsFatal : Obligations.ConstructingUnlockedIsFatal := by
  intro s hf hc hl
  have hfault : (s.raise .constructUnlocked).fault = some .constructUnlocked := State.raise_fault_of_none s _ hf
  exact ⟨_, act_constructCpu_unlocked hf hc hl, hfault, hc, step_cpuAbsent hf hc, step_faulted hfault⟩

/-! ## Operations on CPU Engine state (R249 to R251) -/

theorem onCpu_present {s : State} (t : State) (hc : s.cpuPresent = true) : s.onCpu t = .next t := if_pos hc

theorem onCpu_absent {s : State} (t : State) (hc : s.cpuPresent = false) : s.onCpu t = .refused .cpuAbsent :=
  if_neg (by simp [hc])

section
variable {s : State} (hf : s.fault = none)
include hf

theorem act_setKeys (mask : Word) : act (.setKeys mask) s = s.onCpu (s.setKeys mask) := by
  simp only [act, hf]

theorem act_keyPress (k : Fin 16) : act (.keyPress k) s = s.onCpu (s.keyPress k) := by
  simp only [act, hf]

theorem act_tick : act .tick s = s.onCpu s.tick := by
  simp only [act, hf]

end

theorem keyPress_running {s : State} (k : Fin 16) (hr : s.status = .running) : s.keyPress k = s := by
  simp only [State.keyPress, hr]

/-- Subtraction of naturals stops at 0, as the counter does (D24). -/
theorem tickDown_toNat (b : Byte) : (tickDown b).toNat = b.toNat - 1 := by
  unfold tickDown
  split <;> bv_omega

/-- Settles O51: each of the three passes the fault guard to `onCpu`, which answers the updated state with a CPU
Engine and refuses without one. -/
theorem hostMovesWriteTheirSlots : Obligations.HostMovesWriteTheirSlots := by
  intro s mask k hf
  rw [act_setKeys hf, act_keyPress hf, act_tick hf]
  refine ⟨fun hc => ⟨onCpu_present _ hc, fun hr => ?_,
      _, onCpu_present _ hc, rfl, tickDown_toNat _, tickDown_toNat _⟩,
    fun hc => ⟨onCpu_absent _ hc, onCpu_absent _ hc, onCpu_absent _ hc, step_cpuAbsent hf hc⟩⟩
  rw [keyPress_running k hr, onCpu_present s hc]

end Sys2Proof.Machine
end
